-- ==== Sys2Proof/Word.lean ====
section
/-! DEFINITION. The machine's words: every value is an unsigned integer of a stated width (`00_scope.md` R8). -/

namespace Sys2Proof

/-- A memory cell, a register or an instruction byte: 8 bits, unsigned (`00_scope.md` R7, R8). -/
abbrev Byte := BitVec 8

/-- The program counter: 9 bits, unsigned (`10_state.md` R28). -/
abbrev Pc := BitVec 9

/-- The name of one of the eight registers `R0` to `R7` (`10_state.md` R21). -/
abbrev RegIdx := Fin 8

end Sys2Proof
end

