-- ==== Sys2Proof/Syntax.lean ====
section
/-! DEFINITION. The instructions: one constructor of `Instr` per row of `spec/opcode_table.json`. A register operand is the
whole operand byte (`30_encoding.md` R78), so that an index outside 0 to 7 can be written down and takes its fault. -/

namespace Sys2Proof

/-- The four instruction formats (`30_encoding.md` R75). -/
inductive Format where
  /-- The opcode byte alone. -/
  | n
  /-- One register index. -/
  | r
  /-- A register index and an unsigned immediate byte. -/
  | ri
  /-- Two register indices. -/
  | rr
deriving DecidableEq, Repr

/-- Whether the execution loop or the handler sets the pc (`40_execution_loop.md` R110). -/
inductive PcControl where
  | autoAdvance
  | handlerControlsPc
deriving DecidableEq, Repr

/-- The twelve instructions by name (`00_scope.md` R3). -/
inductive Mnemonic where
  | hlt | ldi | prn | mul | push | pop | call | ret | cmp | jmp | jeq | jne
deriving DecidableEq, Repr

/-- Every mnemonic, in the opcode table's order. -/
def Mnemonic.all : List Mnemonic :=
  [.hlt, .ldi, .prn, .mul, .push, .pop, .call, .ret, .cmp, .jmp, .jeq, .jne]

/-- An instruction with its operand bytes: `a` and `b` are register indices, `imm` an immediate (`30_encoding.md` R75). -/
inductive Instr where
  | hlt
  | ldi (a imm : Byte)
  | prn (a : Byte)
  | mul (a b : Byte)
  | push (a : Byte)
  | pop (a : Byte)
  | call (a : Byte)
  | ret
  | cmp (a b : Byte)
  | jmp (a : Byte)
  | jeq (a : Byte)
  | jne (a : Byte)
deriving DecidableEq, Repr

namespace Instr

def mnemonic : Instr → Mnemonic
  | .hlt => .hlt
  | .ldi _ _ => .ldi
  | .prn _ => .prn
  | .mul _ _ => .mul
  | .push _ => .push
  | .pop _ => .pop
  | .call _ => .call
  | .ret => .ret
  | .cmp _ _ => .cmp
  | .jmp _ => .jmp
  | .jeq _ => .jeq
  | .jne _ => .jne

/-- The operand bytes that are register indices, in the order they are checked (`40_execution_loop.md` R107). -/
def regFields : Instr → List Byte
  | .hlt => []
  | .ldi a _ => [a]
  | .prn a => [a]
  | .mul a b => [a, b]
  | .push a => [a]
  | .pop a => [a]
  | .call a => [a]
  | .ret => []
  | .cmp a b => [a, b]
  | .jmp a => [a]
  | .jeq a => [a]
  | .jne a => [a]

end Instr

end Sys2Proof
end

