-- ==== Sys2Proof/WellFormed.lean ====
section
/-! DEFINITION. When an instruction is well formed: its register operands name registers (`10_state.md` R25). An
instruction that is not well formed decodes and runs too: it takes the fault `OutOfBounds(register, index)`. -/

namespace Sys2Proof

/-- A register operand byte is valid in 0 to 7 (`10_state.md` R25, `30_encoding.md` R78). -/
abbrev validReg (f : Byte) : Prop := f.toNat ≤ 7

/-- Every register field of the instruction is valid. -/
abbrev Instr.WellFormed (i : Instr) : Prop := ∀ f ∈ i.regFields, validReg f

end Sys2Proof
end

