-- ==== Sys2Proof/Decode.lean ====
section
/-! DEFINITION. The opcode map, the decoder, and after it the encoder (`30_encoding.md`). The decoder is written once, over
a source of instruction bytes: the machine's fetch gives it memory (Machine/Fetch.lean), `decode` gives it a list. -/

namespace Sys2Proof

/-! ### Fields of the opcode byte -/

/-- `len = op[7:6] + 1`, from the opcode byte alone (`30_encoding.md` R72). -/
def opLength (op : Byte) : Nat := ((op >>> 6) &&& 0b11).toNat + 1

/-- The PC-set bit `op[4]`, mask `0b00010000` (`30_encoding.md` R71, `40_execution_loop.md` R104). -/
def opPcSet (op : Byte) : Bool := op &&& 0b00010000 != 0

/-! ### Format and PC control of each instruction -/

/-- The instruction's format (`30_encoding.md` R75). -/
def Mnemonic.format : Mnemonic → Format
  | .hlt => .n
  | .ldi => .ri
  | .prn => .r
  | .mul => .rr
  | .push => .r
  | .pop => .r
  | .call => .r
  | .ret => .n
  | .cmp => .rr
  | .jmp => .r
  | .jeq => .r
  | .jne => .r

/-- How many operand bytes a format has (`30_encoding.md` R75). -/
def Format.operandBytes : Format → Nat
  | .n => 0
  | .r => 1
  | .ri => 2
  | .rr => 2

/-- The explicit per-instruction property of `40_execution_loop.md` R110. -/
def Mnemonic.pcControl : Mnemonic → PcControl
  | .hlt => .autoAdvance
  | .ldi => .autoAdvance
  | .prn => .autoAdvance
  | .mul => .autoAdvance
  | .push => .autoAdvance
  | .pop => .autoAdvance
  | .call => .handlerControlsPc
  | .ret => .handlerControlsPc
  | .cmp => .autoAdvance
  | .jmp => .handlerControlsPc
  | .jeq => .handlerControlsPc
  | .jne => .handlerControlsPc

/-! ### The opcode map -/

/-- An opcode byte for each instruction: the parameter `OPCODE_MAP` (`00_scope.md` R7). -/
abbrev OpcodeMap := Mnemonic → Byte

/-- The default map (`30_encoding.md` R76). PRESUMED, log entry 1: the byte values are the LS-8 assignment, which the spec
itself supplies from general knowledge (`92_eei_decisions.md` D1). -/
def opcodeMap : OpcodeMap
  | .hlt => 0b00000001
  | .ldi => 0b10000010
  | .prn => 0b01000111
  | .mul => 0b10100010
  | .push => 0b01000101
  | .pop => 0b01000110
  | .call => 0b01010000
  | .ret => 0b00010001
  | .cmp => 0b10100111
  | .jmp => 0b01010100
  | .jeq => 0b01010101
  | .jne => 0b01010110

/-- What a replacement map must keep: no two instructions share a byte (`30_encoding.md` R80), bits 7:6 give the format's
length and bit 4 the PC-control property (`30_encoding.md` R77). -/
structure OpcodeMap.Lawful (map : OpcodeMap) : Prop where
  distinct : ∀ m n, map m = map n → m = n
  length : ∀ m, opLength (map m) = m.format.operandBytes + 1
  pcSet : ∀ m, opPcSet (map m) = true ↔ m.pcControl = .handlerControlsPc

/-- Dispatch: the instruction whose opcode is the whole byte `op`, if there is one (`30_encoding.md` R80). -/
def dispatch (map : OpcodeMap) (op : Byte) : Option Mnemonic :=
  Mnemonic.all.find? (fun m => map m == op)

/-! ### The decoder -/

/-- Reads one instruction from a source of bytes: `read k` is the byte at offset `k`. The opcode byte first, then the
dispatch, then the operand bytes in address order, and no byte beyond them (`40_execution_loop.md` R100, `30_encoding.md`
R74). `unknown` is the failure for a byte without a handler. -/
def decodeFrom {ε : Type} (map : OpcodeMap) (read : Nat → Except ε Byte) (unknown : Byte → ε) : Except ε Instr := do
  let op ← read 0
  match dispatch map op with
  | none => .error (unknown op)
  | some .hlt => return .hlt
  | some .ldi => return .ldi (← read 1) (← read 2)
  | some .prn => return .prn (← read 1)
  | some .mul => return .mul (← read 1) (← read 2)
  | some .push => return .push (← read 1)
  | some .pop => return .pop (← read 1)
  | some .call => return .call (← read 1)
  | some .ret => return .ret
  | some .cmp => return .cmp (← read 1) (← read 2)
  | some .jmp => return .jmp (← read 1)
  | some .jeq => return .jeq (← read 1)
  | some .jne => return .jne (← read 1)

/-- Why a list of bytes holds no instruction. -/
inductive DecodeError where
  /-- The list ends before the byte at this offset. -/
  | missingByte (offset : Nat)
  /-- The byte has no handler (`30_encoding.md` R81). -/
  | unknownOpcode (op : Byte)
deriving DecidableEq, Repr

/-- The byte at an offset of a list. -/
def listByte (bytes : List Byte) (k : Nat) : Except DecodeError Byte :=
  match bytes[k]? with
  | some b => .ok b
  | none => .error (.missingByte k)

/-- The instruction at the head of a list, with the bytes after it. -/
def decodeWith (map : OpcodeMap) (bytes : List Byte) : Except DecodeError (Instr × List Byte) := do
  let i ← decodeFrom map (listByte bytes) .unknownOpcode
  return (i, bytes.drop (opLength (map i.mnemonic)))

def decode (bytes : List Byte) : Except DecodeError (Instr × List Byte) := decodeWith opcodeMap bytes

/-! ### The encoder -/

/-- The operand bytes in address order: `b1`, then `b2` (`30_encoding.md` R70). -/
def Instr.operands : Instr → List Byte
  | .hlt => []
  | .ldi a imm => [a, imm]
  | .prn a => [a]
  | .mul a b => [a, b]
  | .push a => [a]
  | .pop a => [a]
  | .call a => [a]
  | .ret => []
  | .cmp a b => [a, b]
  | .jmp a => [a]
  | .jeq a => [a]
  | .jne a => [a]

/-- The opcode byte, then the operand bytes, in address order (`30_encoding.md` R75, R76). -/
def encodeWith (map : OpcodeMap) (i : Instr) : List Byte := map i.mnemonic :: i.operands

def encode (i : Instr) : List Byte := encodeWith opcodeMap i

namespace Instr

/-- The instruction's opcode byte (`30_encoding.md` R76). -/
def opcode (i : Instr) : Byte := opcodeMap i.mnemonic

/-- The instruction's length in bytes, by the length decode of its opcode (`30_encoding.md` R72). -/
def length (i : Instr) : Nat := opLength i.opcode

/-- The instruction's PC-control property (`40_execution_loop.md` R110). -/
def pcControl (i : Instr) : PcControl := i.mnemonic.pcControl

end Instr

/-! ### Words numbered as the opcode table numbers them -/

/-- The longest instruction's three bytes of the word `w`: bits 7:0 first; every bit from `nbits` up is 0. -/
def tableBytes (nbits w : Nat) : List Byte :=
  let v := w % 2 ^ nbits
  [BitVec.ofNat 8 v, BitVec.ofNat 8 (v / 2 ^ 8), BitVec.ofNat 8 (v / 2 ^ 16)]

/-- The instruction the decoder reads from the word `w` of a table row of `nbits` bits. -/
def decodeTableWord (nbits w : Nat) : Option Instr :=
  match decode (tableBytes nbits w) with
  | .ok (i, _) => some i
  | .error _ => none

end Sys2Proof
end

