-- ==== Sys2Proof/Config.lean ====
section
/-! DEFINITION. The parameters of this implementation (`00_scope.md` R7, `92_eei_decisions.md`). The parameter
`OPCODE_MAP` is `opcodeMap` in Decode.lean. And the machine's one free input, `out_ok`. -/

namespace Sys2Proof.Config

/-- `MEM_SIZE`: 256 cells, addresses 0 to 255. -/
abbrev memSize : Nat := 256

/-- `SP_INDEX`: register 7 is the stack pointer (`10_state.md` R22). -/
abbrev spIndex : RegIdx := 7

/-- `SP_INIT`: 244 (`10_state.md` R26; decision D6, log entry 2). -/
abbrev spInit : Byte := 244

/-- `PC_INIT`: 0 (`10_state.md` R29; decision D4, log entry 2). -/
abbrev pcInit : Pc := 0

/-- `FLAGS_INIT`: each of E, L and G is 0 (`10_state.md` R34; decision D5, log entry 2). -/
abbrev flagInit : Bool := false

/-- What a cell nobody has written reads as: memory is zero-initialized (`10_state.md` R39). -/
def unlistedByte : Byte := 0

/-- The host's answer `out_ok` to the emission that comes after `n` emitted bytes: a FREE VALUE, nothing constrains it
(`41_load_output_halt.md` R136 "a free input of the step, a draw", `93_implementation_defined.md` U4; log entry 3). A claim
that a program emits a sequence takes the answers 1 as a premise (decision D14). -/
opaque freeOutOk : Nat → Bool

end Sys2Proof.Config
end

