-- ==== Sys2Proof/Machine/State.lean ====
section
/-! DEFINITION. The machine's state: the tuple of `10_state.md` R20 and the host's coming answers on `out_ok`; the faults
the core records in it; how a step of the model can stop; and the state after reset. -/

namespace Sys2Proof.Machine

/-- What lies outside its range in an `OutOfBounds` fault (`60_exceptions.md` R254). -/
inductive BoundKind where
  /-- A memory address outside 0 to 255. -/
  | memory
  /-- A register index outside 0 to 7. -/
  | register
  /-- A stack-pointer or return-address value outside 0 to 255. -/
  | value
deriving DecidableEq, Repr

/-- The causes of the core's fatal errors (`60_exceptions.md` R251). -/
inductive FaultCause where
  /-- The byte `op` fetched at `pc` has no dispatch entry (R253). -/
  | unknownOpcode (op : Byte) (pc : Pc)
  /-- A computed address, index or stack value is out of range (R254). -/
  | outOfBounds (kind : BoundKind) (value : Int)
  /-- The ALU was given an operation other than ADD and MUL (R255). No instruction raises it. -/
  | unsupportedAluOperation (name : String)
  /-- The host failed the emission of a PRN (R262). -/
  | outputError
deriving DecidableEq, Repr

/-- The fault record `info` (`60_exceptions.md` R257): the address of the faulting instruction's opcode, the opcode byte if
it was fetched, and the cause with its kind and value. -/
structure FaultRecord where
  pc : Pc
  op : Option Byte
  cause : FaultCause
deriving DecidableEq, Repr

/-- How the run stands (`10_state.md` R37). -/
inductive Status where
  | running
  | halted
  | fault (info : FaultRecord)
deriving DecidableEq, Repr

/-- Memory in its canonical form `Memory.wf` (Machine/Ops.lean): the cells that do not hold 0, by rising address. -/
abbrev Memory := List Host.Cell

/-- The state of the core (`10_state.md` R20). -/
structure State where
  /-- `M`, 256 bytes. -/
  mem : Memory
  /-- `R[0]` to `R[7]`; `R[7]` is the stack pointer. -/
  regs : Vector Byte 8
  pc : Pc
  /-- `E`, Equal. -/
  flagE : Bool
  /-- `L`, Less. -/
  flagL : Bool
  /-- `G`, Greater. -/
  flagG : Bool
  /-- The running/halted bit of the execution loop (R36). -/
  running : Bool
  status : Status
  /-- The bytes sent to the output port, in order (R40). -/
  out : List Byte
  /-- The model's own field, log entry 3: the host's coming answers on `out_ok` as far as the state names them, earliest
  first. Every answer after them is the free value `Config.freeOutOk`. -/
  outOk : List Bool
deriving DecidableEq, Repr

/-- How a step of the model stops. A fatal error of the core is NOT here: it is a next state whose status is
`FAULT(cause, info)` (log entry 4). -/
inductive Fault where
  /-- Raised by `step` on a machine whose status is `HALTED`: that state has no step (`40_execution_loop.md` R101).
  Safe: the spec gives the state no successor. -/
  | halted
  /-- Raised by `step` on a machine whose status is `FAULT(cause, info)`: that state has no step
  (`40_execution_loop.md` R101). Safe: the spec gives the state no successor. -/
  | faulted (info : FaultRecord)
deriving DecidableEq, Repr

/-- Why an instruction has no meaning in the model. -/
inductive Refusal where
  /-- Raised by an arm of `exec` for an instruction that is not modelled yet; no arm does. Safe. -/
  | notModelled (mnemonic : String)
deriving DecidableEq, Repr

/-- The state after reset with the empty image (`70_reset_and_hazards.md` R280, R281). A program image is put into memory
by `loadImage` (Machine/Loader.lean). No answer of the host is named, so every one is free (log entry 3). -/
def State.reset : State where
  mem := []
  regs := (Vector.replicate 8 0).set 7 Config.spInit
  pc := Config.pcInit
  flagE := Config.flagInit
  flagL := Config.flagInit
  flagG := Config.flagInit
  running := true
  status := .running
  out := []
  outOk := []

end Sys2Proof.Machine
end

