-- ==== Sys2Proof/Machine/Ops.lean ====
section
/-! DEFINITION. The named operations over memory, registers, the stack and the output port; taking a fault; and running a
handler inside a step. A handler is a pure state transition that may raise (`40_execution_loop.md` R107): `.ok` is the state
after it, `.error` the fault it raises, and then none of its writes takes effect (R114). -/

namespace Sys2Proof.Machine

/-- What an operation that may raise answers (`raise X(info)` of `00_scope.md` R10). -/
abbrev Raises (α : Type) := Except FaultCause α

/-! ### Widths (`00_scope.md` R10, R11) -/

/-- `trunc_8(v)`: `v mod 256`. -/
def trunc8 (v : Nat) : Byte := BitVec.ofNat 8 v

/-- `zext_9(v)`: a byte as a program counter. -/
def zext9 (v : Byte) : Pc := v.setWidth 9

/-- `checked8(v)`: a stack address or stack value must be in 0 to 255 (`00_scope.md` R11). -/
def checked8 (v : Int) : Raises Byte :=
  if 0 ≤ v ∧ v ≤ 255 then .ok (BitVec.ofInt 8 v) else .error (.outOfBounds .value v)

/-! ### Memory as data -/

/-- The byte at an address: the listed one, or the reset contents 0 (`10_state.md` R39, `20_memory.md` R61). -/
def Memory.read : Memory → Nat → Byte
  | [], _ => Config.unlistedByte
  | (b, w) :: rest, a => if b = a then w else Memory.read rest a

/-- The cell `(a, v)` before `rest`, unless it holds what an unlisted address reads as. -/
def Memory.putCell (a : Nat) (v : Byte) (rest : Memory) : Memory :=
  if v = Config.unlistedByte then rest else (a, v) :: rest

/-- Memory with the byte `v` at address `a`, in canonical form again. -/
def Memory.write : Memory → Nat → Byte → Memory
  | [], a, v => Memory.putCell a v []
  | (b, w) :: rest, a, v =>
    if a < b then Memory.putCell a v ((b, w) :: rest)
    else if a = b then Memory.putCell a v rest
    else (b, w) :: Memory.write rest a v

/-- The canonical form: addresses strictly rising and inside the address space, and no entry equal to what an unlisted
address reads as. -/
abbrev Memory.wf (m : Memory) : Prop :=
  m.Pairwise (fun x y => x.1 < y.1) ∧ ∀ c ∈ m, c.1 < Config.memSize ∧ c.2 ≠ Config.unlistedByte

/-- Bytes stored at consecutive addresses from `a`; a byte whose address does not exist is left out. -/
def Memory.storeBytes : Memory → Nat → List Byte → Memory
  | m, _, [] => m
  | m, a, v :: vs => Memory.storeBytes (if a < Config.memSize then m.write a v else m) (a + 1) vs

/-- The bytes at `n` consecutive addresses from `a`. -/
def Memory.readBytes (m : Memory) (a n : Nat) : List Byte := (List.range' a n).map m.read

/-! ### The machine's memory accesses (`20_memory.md` R52, R53) -/

/-- `MemRead(a, 1)`. -/
def memRead (a : Nat) (s : State) : Raises Byte :=
  if a < Config.memSize then .ok (s.mem.read a) else .error (.outOfBounds .memory a)

/-- `MemWrite(a, 1, v)`. -/
def memWrite (a : Nat) (v : Byte) (s : State) : Raises State :=
  if a < Config.memSize then .ok { s with mem := s.mem.write a v } else .error (.outOfBounds .memory a)

/-! ### Registers and the program counter -/

/-- `R[i]`. -/
def State.readReg (s : State) (i : RegIdx) : Byte := s.regs.get i

/-- `R[i] <- v`. No register is hardwired (`10_state.md` R24) and `R7` is not special here (R22). -/
def State.writeReg (s : State) (i : RegIdx) (v : Byte) : State := { s with regs := s.regs.set i v }

/-- The stack pointer, another name for `R[7]`. -/
def State.sp (s : State) : Byte := s.readReg Config.spIndex

/-- `pc <- target`. -/
def State.setPc (s : State) (target : Pc) : State := { s with pc := target }

/-! ### The stack primitives -/

/-- `push_slot()`: decrements SP and returns the address to write (`43_stack.md` R170). SP = 0 raises. -/
def pushSlot (s : State) : Raises (Byte × State) := do
  let addr ← checked8 (s.sp.toNat - 1)
  return (addr, s.writeReg Config.spIndex addr)

/-- `pop_read()`: the byte at the top of the stack (`43_stack.md` R171). -/
def popRead (s : State) : Raises Byte := memRead s.sp.toNat s

/-- `pop_bump()`: increments SP as it is now (`43_stack.md` R171). A result of 256 raises. -/
def popBump (s : State) : Raises State := do
  let sp ← checked8 (s.sp.toNat + 1)
  return s.writeReg Config.spIndex sp

/-! ### The output port (`41_load_output_halt.md` R136) -/

/-- The host's answer `out_ok` to the next emission (R136, `93_implementation_defined.md` U4: any value): the one the state
names, else the free value of this emission. An emission that is accepted lengthens `out` and one that fails ends the run,
so no two emissions of a run share a free value (log entry 3). -/
def State.nextOutOk (s : State) : Bool := s.outOk.headD (Config.freeOutOk s.out.length)

/-- `emit(v)`: if the host accepts, `v` is appended to `out`; if not, `OutputError` and nothing is appended. -/
def emit (v : Byte) (s : State) : Raises State :=
  if s.nextOutOk then .ok { s with out := s.out ++ [v], outOk := s.outOk.tail } else .error .outputError

/-! ### Taking a fault, and halting -/

/-- Takes a fault in the state `s` before the step (`40_execution_loop.md` R114, `60_exceptions.md` R250, R256, R257): the
run ends and the record is kept; nothing else changes, and `pc` keeps the address of the faulting instruction's opcode. `op` is
the opcode byte, if it was fetched. There is no trap entry and no return from a fault (R260). -/
def State.takeFault (s : State) (op : Option Byte) (c : FaultCause) : State :=
  { s with running := false, status := .fault ⟨s.pc, op, c⟩ }

/-- `running <- 0; status <- HALTED` (`41_load_output_halt.md` R140). -/
def State.halt (s : State) : State := { s with running := false, status := .halted }

/-! ### Running a handler -/

/-- The loop's advance after the handler (`40_execution_loop.md` R108, R109). -/
def advance (i : Instr) (s : State) : State :=
  match i.pcControl with
  | .autoAdvance => s.setPc (s.pc + BitVec.ofNat 9 i.length)
  | .handlerControlsPc => s

/-- The end of the step of instruction `i` begun in state `s`, given what its checks and handler answer
(`40_execution_loop.md` R100): on completion the loop advances and every write takes effect, on a fault none does (R114). -/
def perform (i : Instr) (s : State) (result : Raises State) : Host.Outcome State Fault Refusal :=
  .next <| match result with
    | .ok t => advance i t
    | .error c => s.takeFault (some i.opcode) c

end Sys2Proof.Machine
end

