-- ==== Sys2Proof/Machine/Operands.lean ====
section
/-! DEFINITION. The operand forms. A register operand is the whole byte (`30_encoding.md` R78); an immediate is the whole
byte too and needs no operation (R79). -/

namespace Sys2Proof.Machine

/-- The register-index check (`10_state.md` R25, `40_execution_loop.md` R107): 0 to 7 select a register, any other byte
raises. -/
def regIndex (f : Byte) : Raises RegIdx :=
  if h : f.toNat < 8 then .ok ⟨f.toNat, h⟩ else .error (.outOfBounds .register f.toNat)

/-- The checks of format RR: field `a` before field `b` (`40_execution_loop.md` R107). -/
def regIndexPair (a b : Byte) : Raises (RegIdx × RegIdx) := do
  let ra ← regIndex a
  let rb ← regIndex b
  return (ra, rb)

end Sys2Proof.Machine
end

