-- ==== Sys2Proof/Machine/Alu.lean ====
section
/-! DEFINITION. The ALU and MUL (`42_alu_multiply.md`). -/

namespace Sys2Proof.Machine

/-- The ALU's operations: ADD and MUL, and any other operation name, which it faults on (`42_alu_multiply.md` R150, R153;
log entry 15). ADD is kept though no opcode reaches it (R151). -/
inductive AluOp where
  | add
  | mul
  | other (name : String)
deriving DecidableEq, Repr

/-- `apply(alu_op, a, b)`: both registers are read before `R[a]` is written; no flag is written (`42_alu_multiply.md` R150 to
R154). -/
def alu (op : AluOp) (a b : RegIdx) (s : State) : Raises State :=
  let x := s.readReg a
  let y := s.readReg b
  match op with
  | .add => .ok (s.writeReg a (trunc8 (x.toNat + y.toNat)))
  | .mul => .ok (s.writeReg a (trunc8 (x.toNat * y.toNat)))
  | .other name => .error (.unsupportedAluOperation name)

/-- MUL `a`, `b` (`42_alu_multiply.md` R155). -/
def execMul (a b : Byte) (s : State) : Host.Outcome State Fault Refusal :=
  perform (.mul a b) s do
    let (ra, rb) ← regIndexPair a b
    alu .mul ra rb s

end Sys2Proof.Machine
end

