-- ==== Sys2Proof/Machine/Flags.lean ====
section
/-! DEFINITION. The flags: three independent bits, written by CMP alone (`10_state.md` R32, R33). -/

namespace Sys2Proof.Machine

/-- Writes all three flags. -/
def State.setFlags (s : State) (e l g : Bool) : State := { s with flagE := e, flagL := l, flagG := g }

/-- CMP's flags: reset all three, then set exactly one, by unsigned comparison (`45_compare.md` R210, R211). -/
def State.compareFlags (s : State) (x y : Byte) : State :=
  if x = y then s.setFlags true false false
  else if x.toNat < y.toNat then s.setFlags false true false
  else s.setFlags false false true

end Sys2Proof.Machine
end

