-- ==== Sys2Proof/Machine/Compare.lean ====
section
/-! DEFINITION. CMP (`45_compare.md`). -/

namespace Sys2Proof.Machine

/-- CMP `a`, `b`: resets the three flags, then sets exactly one (R210). -/
def execCmp (a b : Byte) (s : State) : Host.Outcome State Fault Refusal :=
  perform (.cmp a b) s do
    let (ra, rb) ← regIndexPair a b
    return s.compareFlags (s.readReg ra) (s.readReg rb)

end Sys2Proof.Machine
end

