-- ==== Sys2Proof/Machine/Jumps.lean ====
section
/-! DEFINITION. JMP, JEQ and JNE (`46_jumps.md`). The register field is checked taken or not (decision D10, log entry 11). -/

namespace Sys2Proof.Machine

/-- The pc of a conditional jump: the target if taken, else the handler's own advance by 2 (`40_execution_loop.md` R109). -/
def branch (taken : Bool) (target : Byte) (s : State) : State :=
  if taken then s.setPc (zext9 target) else s.setPc (s.pc + 2)

/-- JMP `a`: `pc <- R[a]` (R230). -/
def execJmp (a : Byte) (s : State) : Host.Outcome State Fault Refusal :=
  perform (.jmp a) s do
    let ra ← regIndex a
    return s.setPc (zext9 (s.readReg ra))

/-- JEQ `a`: taken iff `E = 1` (R231). -/
def execJeq (a : Byte) (s : State) : Host.Outcome State Fault Refusal :=
  perform (.jeq a) s do
    let ra ← regIndex a
    return branch s.flagE (s.readReg ra) s

/-- JNE `a`: taken iff `E = 0` (R232). -/
def execJne (a : Byte) (s : State) : Host.Outcome State Fault Refusal :=
  perform (.jne a) s do
    let ra ← regIndex a
    return branch (!s.flagE) (s.readReg ra) s

end Sys2Proof.Machine
end

