-- ==== Sys2Proof/Machine/LoadOutputHalt.lean ====
section
/-! DEFINITION. LDI, PRN and HLT (`41_load_output_halt.md`). -/

namespace Sys2Proof.Machine

/-- LDI `a`, `imm`: `R[a] <- imm` (R130; the immediate is the whole byte, `30_encoding.md` R79). -/
def execLdi (a imm : Byte) (s : State) : Host.Outcome State Fault Refusal :=
  perform (.ldi a imm) s do
    let ra ← regIndex a
    return s.writeReg ra imm

/-- PRN `a`: `emit(R[a])` (R135, R136). -/
def execPrn (a : Byte) (s : State) : Host.Outcome State Fault Refusal :=
  perform (.prn a) s do
    let ra ← regIndex a
    emit (s.readReg ra) s

/-- HLT: `running <- 0; status <- HALTED` (R140). -/
def execHlt (s : State) : Host.Outcome State Fault Refusal :=
  perform .hlt s (.ok s.halt)

end Sys2Proof.Machine
end

