-- ==== Sys2Proof/Machine/Stack.lean ====
section
/-! DEFINITION. PUSH and POP (`43_stack.md`). Statements run in the order written (`00_scope.md` R10; decision D15, log
entry 10). -/

namespace Sys2Proof.Machine

/-- PUSH `a`: `SP -= 1; memory[SP] = R[a]`, with `R[a]` read after SP was decremented (R172). -/
def execPush (a : Byte) (s : State) : Host.Outcome State Fault Refusal :=
  perform (.push a) s do
    let ra ← regIndex a
    let (addr, t) ← pushSlot s
    memWrite addr.toNat (t.readReg ra) t

/-- POP `a`: `R[a] = memory[SP]; SP += 1`, with SP incremented as it is after the write to `R[a]` (R173). -/
def execPop (a : Byte) (s : State) : Host.Outcome State Fault Refusal :=
  perform (.pop a) s do
    let ra ← regIndex a
    let v ← popRead s
    popBump (s.writeReg ra v)

end Sys2Proof.Machine
end

