-- ==== Sys2Proof/Machine/Subroutine.lean ====
section
/-! DEFINITION. CALL and RET (`44_subroutine.md`). -/

namespace Sys2Proof.Machine

/-- CALL `a`: pushes `pc + 2`, which must fit a byte, then `pc <- R[a]`, with `R[a]` read after the push (R190). -/
def execCall (a : Byte) (s : State) : Host.Outcome State Fault Refusal :=
  perform (.call a) s do
    let ra ← regIndex a
    let ret ← checked8 (s.pc.toNat + 2)
    let (addr, t) ← pushSlot s
    let u ← memWrite addr.toNat ret t
    return u.setPc (zext9 (u.readReg ra))

/-- RET: pops the return address into `pc` (R191; `90_conflicts.md` C2: pop mirrors push). -/
def execRet (s : State) : Host.Outcome State Fault Refusal :=
  perform .ret s do
    let v ← popRead s
    popBump (s.setPc (zext9 v))

end Sys2Proof.Machine
end

