-- ==== Sys2Proof/Machine/Fetch.lean ====
section
/-! DEFINITION. Fetching an instruction (`40_execution_loop.md` R102 to R106): the decoder of Decode.lean over the memory at
the pc. Every byte is read anew (`20_memory.md` R63). -/

namespace Sys2Proof.Machine

/-- The instruction at the pc, or the fault its fetch raises, in the order of `40_execution_loop.md` R100: the opcode byte,
then the dispatch, then `b1` and `b2` as far as the length covers them. -/
def fetch (s : State) : Raises Instr :=
  decodeFrom opcodeMap (fun k => memRead (s.pc.toNat + k) s) (fun op => .unknownOpcode op s.pc)

/-- The opcode byte, if it was fetched: what the fault record of a failed fetch holds (`60_exceptions.md` R257). -/
def fetchedOpcode (s : State) : Option Byte :=
  if s.pc.toNat < Config.memSize then some (s.mem.read s.pc.toNat) else none

/-- The bytes from the pc up to the end of memory: what the fetch can read. -/
def codeBytes (s : State) : List Byte := s.mem.readBytes s.pc.toNat (Config.memSize - s.pc.toNat)

end Sys2Proof.Machine
end

