-- ==== Sys2Proof/Machine/Step.lean ====
section
/-! DEFINITION. One step: one whole instruction (`40_execution_loop.md` R100). -/

namespace Sys2Proof.Machine

/-- A machine that is `RUNNING` fetches and executes one instruction, or takes the fault its fetch raises; a machine that is
`HALTED` or `FAULT` has no step (`40_execution_loop.md` R101; log entry 4). -/
def step (s : State) : Host.Outcome State Fault Refusal :=
  match s.status with
  | .halted => .fault .halted
  | .fault info => .fault (.faulted info)
  | .running =>
    match fetch s with
    | .ok i => exec i s
    | .error c => .next (s.takeFault (fetchedOpcode s) c)

/-- `s` with the instruction word `w` of a table row of `nbits` bits stored at the pc (log entry 8). -/
def State.withFetchWord (s : State) (nbits w : Nat) : State :=
  { s with mem := s.mem.storeBytes s.pc.toNat (tableBytes nbits w) }

end Sys2Proof.Machine
end

