-- ==== Sys2Proof/Machine/Loader.lean ====
section
/-! DEFINITION. The host's load before the run: the interface `load(image)` (`40_execution_loop.md` R116,
`70_reset_and_hazards.md` R284) and the text a program image is written in (`30_encoding.md` R92). It is outside the core
(`00_scope.md` R6); no step uses it. -/

namespace Sys2Proof.Machine

/-- The host's failure before the run: the core never runs (`60_exceptions.md` R263). -/
inductive LoadError where
  /-- The program file is missing or unreadable. -/
  | fileUnreadable
  /-- The image has more than 256 bytes (`70_reset_and_hazards.md` R284; decision D17, log entry 16). -/
  | imageTooLong (bytes : Nat)
deriving DecidableEq, Repr

/-- The status code of a load failure (`60_exceptions.md` R252). -/
def LoadError.code (_ : LoadError) : Nat := 1

/-- `load(image)` on the reset state: byte `k` of the image goes to `M[k]`; a longer image than memory is refused
(`70_reset_and_hazards.md` R280, R284). -/
def loadImage (image : List Byte) : Except LoadError State :=
  if image.length ≤ Config.memSize then .ok { State.reset with mem := State.reset.mem.storeBytes 0 image }
  else .error (.imageTooLong image.length)

/-- The value of a string of binary digits, or none if another character stands in it. -/
def binaryDigits : List Char → Nat → Option Nat
  | [], n => some n
  | '0' :: cs, n => binaryDigits cs (2 * n)
  | '1' :: cs, n => binaryDigits cs (2 * n + 1)
  | _ :: _, _ => none

/-- The byte of one line: a comment from `#` on is stripped, then blanks at both ends; what is left must be an 8-character
binary literal. Any other line gives no byte (`30_encoding.md` R92; log entry 16). -/
def parseLine (line : List Char) : Option Byte :=
  let text := ((line.takeWhile (· != '#')).dropWhile Char.isWhitespace).rdropWhile Char.isWhitespace
  if text.length = 8 then (binaryDigits text 0).map (BitVec.ofNat 8) else none

/-- The image of a program text: one byte per valid line, in file order; every other line is skipped and consumes no address
(`30_encoding.md` R92). -/
def parseImage (lines : List (List Char)) : List Byte := lines.filterMap parseLine

/-- Loading a program file, given its lines, or none if it is missing or unreadable (`60_exceptions.md` R263). -/
def loadFile (file : Option (List (List Char))) : Except LoadError State :=
  match file with
  | none => .error .fileUnreadable
  | some lines => loadImage (parseImage lines)

end Sys2Proof.Machine
end

