-- ==== Sys2Proof/Machine/Observe.lean ====
section
/-! DEFINITION. What the outside world sees of the core: the `status` and `fault_info` outputs (`40_execution_loop.md` R116)
and the informative flags byte (`10_state.md` R35). Nothing in the machine reads any of it. -/

namespace Sys2Proof.Machine

/-- The status code of a fault cause (`60_exceptions.md` R252). The numbers are the spec's own choice (log entry 13). -/
def FaultCause.code : FaultCause → Nat
  | .unknownOpcode _ _ => 2
  | .outOfBounds _ _ => 3
  | .unsupportedAluOperation _ => 4
  | .outputError => 5

/-- The status code, which is also the suggested exit code (`60_exceptions.md` R252). `RUNNING` has none. -/
def Status.code : Status → Option Nat
  | .running => none
  | .halted => some 0
  | .fault info => some info.cause.code

/-- The output `fault_info`: the fault record of a faulted machine (`60_exceptions.md` R257). -/
def State.faultInfo (s : State) : Option FaultRecord :=
  match s.status with
  | .fault info => some info
  | .running => none
  | .halted => none

/-- The output `status` as its code. -/
def State.statusCode (s : State) : Option Nat := s.status.code

/-- The flags as a byte, `0b00000 ++ L ++ G ++ E` (`10_state.md` R35). PRESUMED, log entry 19: the layout is the LS-8's, which
the spec itself supplies from general knowledge; no rule depends on it. -/
def State.flagsByte (s : State) : Byte :=
  (0 : BitVec 5) ++ BitVec.ofBool s.flagL ++ BitVec.ofBool s.flagG ++ BitVec.ofBool s.flagE

end Sys2Proof.Machine
end

