-- ==== Sys2Proof/Safety.lean ====
section
/-! DEFINITION. The words the claims use: when a run has ended and how, and the invariant of the machine. -/

namespace Sys2Proof.Machine

/-- A state is final exactly when it is halted (`40_execution_loop.md` R113). -/
abbrev State.isFinal (s : State) : Prop := s.status = .halted

/-- The machine has taken a fault; such a state is not final and refutes any postcondition (`40_execution_loop.md` R113). -/
abbrev State.isFaulted (s : State) : Prop := ∃ info, s.status = .fault info

/-- A run from `s` under fuel: it stops where there is no step (`40_execution_loop.md` R112). -/
def runFor : Nat → State → State
  | 0, s => s
  | k + 1, s =>
    match step s with
    | .next t => runFor k t
    | .fault _ => s
    | .refused _ => s

/-- A safe run: from `s` the machine halts normally in at most `k` steps and ends in `t`. -/
def haltsIn (k : Nat) (s t : State) : Prop := runFor k s = t ∧ t.isFinal

/-- The outcome of a step with its next state seen through `f`. -/
def mapNext (f : State → State) : Host.Outcome State Fault Refusal → Host.Outcome State Fault Refusal
  | .next t => .next (f t)
  | .fault r => .fault r
  | .refused r => .refused r

/-- Between `s` and `t`, the run either stands as before or the instruction `i` has taken a fault that changed nothing else. -/
def statusKeptOrFault (i : Instr) (s t : State) : Prop :=
  (t.running = s.running ∧ t.status = s.status) ∨
    ∃ c, t = { s with running := false, status := .fault ⟨s.pc, some i.opcode, c⟩ }

/-- The invariant of the machine. -/
structure State.Inv (s : State) : Prop where
  /-- Memory keeps its canonical form and its 256 addresses (`20_memory.md` R50). -/
  memory : s.mem.wf
  /-- No reachable pc exceeds 258 (`10_state.md` R28). -/
  pcBound : s.pc.toNat ≤ 258
  /-- `running = 1` exactly when `status = RUNNING` (`10_state.md` R20). -/
  runningIff : s.running = true ↔ s.status = .running
  /-- At most one flag is set: CMP sets exactly one, and at reset none is (`45_compare.md` R210, `10_state.md` R34). -/
  flags : ¬(s.flagE = true ∧ s.flagL = true) ∧ ¬(s.flagE = true ∧ s.flagG = true) ∧ ¬(s.flagL = true ∧ s.flagG = true)
  /-- A faulted machine's pc is still the address of the faulting instruction's opcode (`60_exceptions.md` R256). -/
  faultPc : ∀ info, s.status = .fault info → info.pc = s.pc

end Sys2Proof.Machine
end

