-- ==== Sys2Proof/Certificates/Slice0/Obligations.lean ====
section
/-! DEFINITION. The statements for the provers. "Decision D<n>" names a row of `92_eei_decisions.md`: a point the spec settles
by its own decision and not from its source. -/

open Sys2Proof Sys2Proof.Machine

/-! ### Reset and load -/

/-- `10_state.md` R39: memory has the cells 0 to 255, is zero at construction, and the load puts image byte `i` at `i` and
leaves every other byte 0. -/
def Obligations.LoadedMemoryHoldsImage : Prop :=
  (∀ a, State.reset.mem.read a = 0) ∧
  ∀ image : List Byte, image.length ≤ 256 → ∃ s, loadImage image = .ok s ∧
    (∀ a, s.mem.read a = if h : a < image.length then image[a] else 0) ∧
    (∀ a, (∃ b, memRead a s = .ok b) ↔ a < 256)

/-- Every register, the pc, the flags, the run and the output after reset and after a load (`70_reset_and_hazards.md`, table of
reset values). The values of SP, pc, flags and running are the spec's decisions D6, D4, D5, D23 (log entry 2). -/
def Obligations.ResetAndLoadedFields : Prop :=
  ∀ s : State, (s = State.reset ∨ ∃ image, loadImage image = .ok s) →
    (∀ r : RegIdx, r ≠ 7 → s.readReg r = 0) ∧ s.readReg 7 = 244 ∧ s.pc = 0 ∧
    s.flagE = false ∧ s.flagL = false ∧ s.flagG = false ∧
    s.running = true ∧ s.status = .running ∧ s.out = []

/-- The host refuses an image of more than 256 bytes before the run, and no other (decision D17, log entry 16). -/
def Obligations.OverlongImageIsRefused : Prop :=
  ∀ image : List Byte,
    (image.length ≤ 256 ↔ ∃ s, loadImage image = .ok s) ∧
    (256 < image.length ↔ loadImage image = .error (.imageTooLong image.length))

/-! ### Encoding -/

/-- For every lawful opcode map, decoding an encoded instruction gives it back, whatever its operand bytes and whatever bytes
follow. -/
def Obligations.DecodeOfEncode : Prop :=
  ∀ map : OpcodeMap, map.Lawful → ∀ (i : Instr) (rest : List Byte),
    decodeWith map (encodeWith map i ++ rest) = .ok (i, rest)

/-- For every lawful opcode map, the bytes a decoding has consumed are exactly the encoding of its instruction: each sequence of
bytes has one meaning, and no byte beyond the instruction's own is looked at. -/
def Obligations.EncodeOfDecode : Prop :=
  ∀ map : OpcodeMap, map.Lawful → ∀ (bytes rest : List Byte) (i : Instr),
    decodeWith map bytes = .ok (i, rest) → bytes = encodeWith map i ++ rest

/-- The default opcode map keeps every equality a map must keep (log entry 1: its byte values are presumed). -/
def Obligations.DefaultOpcodeMapIsLawful : Prop := OpcodeMap.Lawful opcodeMap

/-- `30_encoding.md` R80: the full byte is looked up, an equal byte selects the instruction, and no two rows share a byte. -/
def Obligations.DispatchComparesWholeByte : Prop :=
  (∀ (op : Byte) (m : Mnemonic), dispatch opcodeMap op = some m ↔ opcodeMap m = op) ∧
  (∀ m n : Mnemonic, opcodeMap m = opcodeMap n → m = n)

/-- `30_encoding.md` R72: the decoder consumes `((opcode >> 6) & 0b11) + 1` bytes, which is 1, 2 or 3. -/
def Obligations.LengthIsDecodedFromOpcode : Prop :=
  ∀ (bytes rest : List Byte) (i : Instr), decode bytes = .ok (i, rest) →
    ∃ (op : Byte) (tail : List Byte), bytes = op :: tail ∧ i.length = ((op >>> 6) &&& 0b11).toNat + 1 ∧
      bytes.length = i.length + rest.length ∧ (i.length = 1 ∨ i.length = 2 ∨ i.length = 3)

/-- `40_execution_loop.md` R110: CALL, RET, JMP, JEQ and JNE are HandlerControlsPC, the others AutoAdvance, and the property
equals bit 4 of the opcode. -/
def Obligations.PcControlIsOpcodeBitFour : Prop :=
  ∀ i : Instr,
    (i.pcControl = .handlerControlsPc ↔ i.mnemonic ∈ [Mnemonic.call, .ret, .jmp, .jeq, .jne]) ∧
    (i.pcControl = .autoAdvance ↔ i.mnemonic ∈ [Mnemonic.ldi, .prn, .hlt, .mul, .push, .pop, .cmp]) ∧
    (i.opcode.getLsbD 4 = true ↔ i.pcControl = .handlerControlsPc)

/-- One encoding of every format, written out from the opcode table (log entry 1: the opcode values are presumed). -/
def Obligations.SpecWordsDecode : Prop :=
  decode [0b00000001] = .ok (.hlt, []) ∧
  decode [0b10000010, 0b00000101, 0b11111111] = .ok (.ldi 5 255, []) ∧
  decode [0b10100010, 0b00000010, 0b00000111] = .ok (.mul 2 7, []) ∧
  decode [0b01010000, 0b00000001, 0b10101010] = .ok (.call 1, [0b10101010]) ∧
  decode [0b00010001] = .ok (.ret, []) ∧
  decode [0b10100000, 0, 1] = .error (.unknownOpcode 0b10100000)

/-! ### The step -/

/-- When the bytes from the pc on decode to an instruction, the step of a running machine is its execution. -/
def Obligations.StepRunsDecodedInstruction : Prop :=
  ∀ (s : State) (i : Instr) (rest : List Byte),
    s.status = .running → decode (codeBytes s) = .ok (i, rest) → step s = exec i s

/-- `40_execution_loop.md` R101: a step is defined exactly when the status is RUNNING. -/
def Obligations.StepDefinedExactlyWhenRunning : Prop :=
  ∀ s : State, (∃ t, step s = .next t) ↔ s.status = .running

/-- `40_execution_loop.md` R115: the controller's three states and their transitions: HLT halts, every fatal error of the fetch
or of a handler faults, and HALTED and FAULT are absorbing. -/
def Obligations.ControllerTransitions : Prop :=
  (∀ s t : State, s.status = .running → step s = .next t →
    (t.status = .halted ↔ fetch s = .ok .hlt) ∧
    (t.status = .running ∨ t.status = .halted ∨ ∃ info, t.status = .fault info)) ∧
  (∀ (s : State) (c : FaultCause), s.status = .running → fetch s = .error c →
    ∃ t info, step s = .next t ∧ t.status = .fault info ∧ info.cause = c) ∧
  (∀ (i : Instr) (s : State) (c : FaultCause),
    ∃ t info, perform i s (.error c) = .next t ∧ t.status = .fault info ∧ info.cause = c) ∧
  (∀ s t : State, s.status ≠ .running → step s ≠ .next t)

/-- The opcode byte is `M[pc]`, and a pc above 255 raises `OutOfBounds(memory, pc)` and nothing else happens
(`40_execution_loop.md` R102). That the record then holds no opcode is the spec's decision D13 (`60_exceptions.md` R257; log
entry 13). -/
def Obligations.OpcodeFetch : Prop :=
  (∀ s : State, s.status = .running → 255 < s.pc.toNat →
    step s = .next { s with running := false,
                            status := .fault ⟨s.pc, none, .outOfBounds .memory s.pc.toNat⟩ }) ∧
  (∀ (s : State) (i : Instr), fetch s = .ok i → s.pc.toNat ≤ 255 ∧ i.opcode = s.mem.read s.pc.toNat)

/-- `30_encoding.md` R81, `40_execution_loop.md` R105: a byte without a handler faults, with no operand read; there are 244, and
0 and every byte with the length field 11 are among them. -/
def Obligations.UnknownOpcodeFaults : Prop :=
  (∀ s : State, s.status = .running → s.pc.toNat ≤ 255 → (∀ m, opcodeMap m ≠ s.mem.read s.pc.toNat) →
    step s = .next { s with running := false,
                            status := .fault ⟨s.pc, some (s.mem.read s.pc.toNat),
                              .unknownOpcode (s.mem.read s.pc.toNat) s.pc⟩ }) ∧
  ((List.range 256).filter (fun n => Mnemonic.all.all (fun m => opcodeMap m != BitVec.ofNat 8 n))).length = 244 ∧
  (∀ m, opcodeMap m ≠ 0) ∧
  (∀ (m : Mnemonic) (op : Byte), op >>> 6 = 0b11 → opcodeMap m ≠ op)

/-- An instruction whose operand bytes run past address 255 raises `OutOfBounds(memory, 256)` before its register fields are
checked (decisions D10, D12, log entry 11). -/
def Obligations.OperandPastMemoryFaults : Prop :=
  ∀ (s : State) (m : Mnemonic), s.status = .running → s.pc.toNat ≤ 255 → s.mem.read s.pc.toNat = opcodeMap m →
    255 < s.pc.toNat + m.format.operandBytes →
    step s = .next { s with running := false,
                            status := .fault ⟨s.pc, some (opcodeMap m), .outOfBounds .memory 256⟩ }

/-- The fetch depends on nothing but the pc and the bytes there: every byte is read anew, so a byte an instruction has written is
seen by the next fetch of it, and no hidden state is kept between steps. -/
def Obligations.FetchDependsOnlyOnBytesAtPc : Prop :=
  ∀ s t : State, s.pc = t.pc →
    (∀ k, k < 3 → s.mem.read (s.pc.toNat + k) = t.mem.read (t.pc.toNat + k)) → fetch s = fetch t

/-- `20_memory.md` R52: every memory access is bounds-checked, and an address past 255 raises `OutOfBounds(memory, address)`. -/
def Obligations.MemoryAccessIsBoundsChecked : Prop :=
  ∀ (a : Nat) (v : Byte) (s : State),
    (a ≤ 255 → memRead a s = .ok (s.mem.read a) ∧ ∃ t, memWrite a v s = .ok t) ∧
    (255 < a → memRead a s = .error (.outOfBounds .memory a) ∧ memWrite a v s = .error (.outOfBounds .memory a))

/-- `40_execution_loop.md` R104: after a handler that completes, the loop advances the pc by the length exactly when bit 4 of
the opcode is clear. -/
def Obligations.LoopAdvancesUnlessPcSetBit : Prop :=
  ∀ (i : Instr) (s t : State),
    perform i s (.ok t) =
      .next (if i.opcode &&& 0b00010000 = 0 then { t with pc := t.pc + BitVec.ofNat 9 i.length } else t)

/-! ### Faults -/

/-- `60_exceptions.md` R250: a fault sets `running <- 0` and `status <- FAULT(cause, info)`, and the run has ended: there is no
handler and no return. -/
def Obligations.FaultEndsTheRun : Prop :=
  (∀ (s : State) (op : Option Byte) (c : FaultCause),
    (s.takeFault op c).running = false ∧ (s.takeFault op c).status = .fault ⟨s.pc, op, c⟩) ∧
  (∀ (s t : State) (info : FaultRecord), step s = .next t → t.status = .fault info →
    t.running = false ∧ step t = .fault (.faulted info))

/-- A faulting step commits nothing but the end of the run, and its record holds the address of the opcode and the opcode byte
if it was fetched (decisions D11, D13, log entries 12, 13). -/
def Obligations.FaultsArePrecise : Prop :=
  ∀ (s t : State) (info : FaultRecord), step s = .next t → t.status = .fault info →
    t = { s with running := false, status := .fault info } ∧ info.pc = s.pc ∧
    info.op = if s.pc.toNat ≤ 255 then some (s.mem.read s.pc.toNat) else none

/-- Every fault of a step is one of the list of fault causes, with the values the list gives it (decisions D7, D8, D9, log
entry 9). -/
def Obligations.FaultCausesAreListed : Prop :=
  ∀ (s t : State) (info : FaultRecord), step s = .next t → t.status = .fault info →
    info.cause = .unknownOpcode (s.mem.read s.pc.toNat) s.pc ∨
    (∃ a : Nat, 255 < a ∧ s.pc.toNat ≤ a ∧ a ≤ s.pc.toNat + 2 ∧ info.cause = .outOfBounds .memory a) ∨
    (∃ f : Byte, 7 < f.toNat ∧ info.cause = .outOfBounds .register f.toNat) ∨
    info.cause = .outOfBounds .value (-1) ∨ info.cause = .outOfBounds .value 256 ∨
    info.cause = .outputError

/-- The first register field above 7, in the order `a`, `b`, is the fault of its instruction, taken or not, in every form that
has a register field (decision D10, log entry 11). -/
def Obligations.RegisterIndexAboveSevenFaults : Prop :=
  ∀ (i : Instr) (s : State) (f : Byte), i.regFields.find? (fun x => decide (7 < x.toNat)) = some f →
    exec i s = .next { s with running := false,
                              status := .fault ⟨s.pc, some i.opcode, .outOfBounds .register f.toNat⟩ }

/-- Where a well-formed PUSH, POP, CALL or RET faults: the stack pointer or the return address leaves 0 to 255; CALL checks the
return address first (decisions D7, D8, D9, D12, log entries 9, 11; the opcode bytes in the records, log entry 1). -/
def Obligations.StackRangeFaults : Prop :=
  ∀ (a : Byte) (s : State), a.toNat < 8 →
    (s.sp = 0 → exec (.push a) s = .next (s.takeFault (some 0x45) (.outOfBounds .value (-1)))) ∧
    (a ≠ 7 → s.sp = 255 → exec (.pop a) s = .next (s.takeFault (some 0x46) (.outOfBounds .value 256))) ∧
    (s.mem.read s.sp.toNat = 255 → exec (.pop 7) s = .next (s.takeFault (some 0x46) (.outOfBounds .value 256))) ∧
    (s.sp = 255 → exec .ret s = .next (s.takeFault (some 0x11) (.outOfBounds .value 256))) ∧
    (253 < s.pc.toNat →
      exec (.call a) s = .next (s.takeFault (some 0x50) (.outOfBounds .value (s.pc.toNat + 2)))) ∧
    (s.pc.toNat ≤ 253 → s.sp = 0 →
      exec (.call a) s = .next (s.takeFault (some 0x50) (.outOfBounds .value (-1))))

/-! ### The ALU -/

/-- `42_alu_multiply.md` R152: MUL is the product modulo 256, the same bits for signed and unsigned operands, and no high half
is kept. -/
def Obligations.AluMulWraps : Prop :=
  ∀ (a b : RegIdx) (s : State),
    alu .mul a b s = .ok { s with regs := s.regs.set a (BitVec.ofNat 8 ((s.readReg a).toNat * (s.readReg b).toNat % 256)) } ∧
    (s.readReg a).toNat * (s.readReg b).toNat ≤ 65025 ∧
    BitVec.ofNat 8 ((s.readReg a).toNat * (s.readReg b).toNat % 256) =
      BitVec.ofInt 8 ((s.readReg a).toInt * (s.readReg b).toInt)

/-- ADD is the sum modulo 256, with no carry out; it is a library operation of the ALU (log entry 15). -/
def Obligations.AluAddWraps : Prop :=
  ∀ (a b : RegIdx) (s : State),
    alu .add a b s = .ok { s with regs := s.regs.set a (BitVec.ofNat 8 (((s.readReg a).toNat + (s.readReg b).toNat) % 256)) }

/-- `42_alu_multiply.md` R153: any other operation name is a fatal, unsupported-operation error, and no step reaches it. -/
def Obligations.UnsupportedAluOperationUnreachable : Prop :=
  (∀ (name : String) (a b : RegIdx) (s : State), alu (.other name) a b s = .error (.unsupportedAluOperation name)) ∧
  (∀ (s t : State) (info : FaultRecord) (name : String), step s = .next t → t.status = .fault info →
    info.cause ≠ .unsupportedAluOperation name)

/-- `42_alu_multiply.md` R154: the ALU writes no flag. -/
def Obligations.AluWritesNoFlag : Prop :=
  ∀ (op : AluOp) (a b : RegIdx) (s t : State), alu op a b s = .ok t →
    t.flagE = s.flagE ∧ t.flagL = s.flagL ∧ t.flagG = s.flagG

/-! ### What each instruction does -/

/-- `30_encoding.md` R79: LDI's immediate is the whole second operand byte, and the register holds it unchanged. Every
register operand 0 to 7, R7 among them. -/
def Obligations.LdiWritesImmediateUnchanged : Prop :=
  (∀ a imm : Byte, decode [opcodeMap .ldi, a, imm] = .ok (.ldi a imm, [])) ∧
  ∀ (a imm : Byte) (s : State) (h : a.toNat < 8),
    exec (.ldi a imm) s = .next { s with regs := s.regs.set a.toNat imm, pc := s.pc + 3 }

/-- PRN appends the register's byte if the host accepts, and faults with nothing appended if it does not, whatever the host
answers (decision D14, log entry 3; the opcode byte in the record, log entry 1). -/
def Obligations.PrnEmitsRegister : Prop :=
  ∀ (a : Byte) (s : State) (h : a.toNat < 8),
    (s.nextOutOk = true →
      exec (.prn a) s = .next { s with out := s.out ++ [s.readReg ⟨a.toNat, h⟩], outOk := s.outOk.tail, pc := s.pc + 2 }) ∧
    (s.nextOutOk = false → exec (.prn a) s = .next (s.takeFault (some 0x47) .outputError))

/-- HLT ends the run normally and advances the pc by 1. -/
def Obligations.HltHalts : Prop :=
  ∀ s : State, exec .hlt s = .next { s with running := false, status := .halted, pc := s.pc + 1 }

/-- MUL writes `(R[a] * R[b]) mod 256` to `R[a]`, for every pair of registers, equal ones and R7 among them. -/
def Obligations.MulWritesProduct : Prop :=
  ∀ (a b : Byte) (s : State) (ha : a.toNat < 8) (hb : b.toNat < 8),
    exec (.mul a b) s = .next { s with
      regs := s.regs.set a.toNat
        (BitVec.ofNat 8 ((s.readReg ⟨a.toNat, ha⟩).toNat * (s.readReg ⟨b.toNat, hb⟩).toNat % 256)),
      pc := s.pc + 3 }

/-- PUSH decrements SP and writes the register's byte at the new SP; PUSH R7 writes the decremented SP (decision D15, log
entry 10). -/
def Obligations.PushDecrementsThenWrites : Prop :=
  ∀ (a : Byte) (s : State) (ha : a.toNat < 8), s.sp ≠ 0 →
    exec (.push a) s = .next { s with
      regs := s.regs.set 7 (s.sp - 1),
      mem := s.mem.write (s.sp.toNat - 1) (if a = 7 then s.sp - 1 else s.readReg ⟨a.toNat, ha⟩),
      pc := s.pc + 2 }

/-- POP reads at SP, then increments SP; POP R7 leaves the popped byte plus 1 (decision D15, log entry 10). -/
def Obligations.PopReadsThenIncrements : Prop :=
  (∀ (a : Byte) (s : State) (ha : a.toNat < 8), a ≠ 7 → s.sp ≠ 255 →
    exec (.pop a) s = .next { s with
      regs := (s.regs.set a.toNat (s.mem.read s.sp.toNat)).set 7 (s.sp + 1),
      pc := s.pc + 2 }) ∧
  (∀ s : State, s.mem.read s.sp.toNat ≠ 255 →
    exec (.pop 7) s = .next { s with
      regs := s.regs.set 7 (s.mem.read s.sp.toNat + 1),
      pc := s.pc + 2 })

/-- CALL pushes `pc + 2` and jumps to the register; CALL R7 jumps to the decremented SP (decisions D9, D15, log entries 9,
10). -/
def Obligations.CallPushesReturnAddress : Prop :=
  ∀ (a : Byte) (s : State) (ha : a.toNat < 8), s.pc.toNat ≤ 253 → s.sp ≠ 0 →
    exec (.call a) s = .next { s with
      regs := s.regs.set 7 (s.sp - 1),
      mem := s.mem.write (s.sp.toNat - 1) (BitVec.ofNat 8 (s.pc.toNat + 2)),
      pc := (if a = 7 then s.sp - 1 else s.readReg ⟨a.toNat, ha⟩).setWidth 9 }

/-- RET pops the byte at SP into the pc: pop mirrors push (conflict C2). -/
def Obligations.RetPopsPc : Prop :=
  ∀ s : State, s.sp ≠ 255 →
    exec .ret s = .next { s with
      regs := s.regs.set 7 (s.sp + 1),
      pc := (s.mem.read s.sp.toNat).setWidth 9 }

/-- `45_compare.md` R211: CMP sets the flags by comparing the two registers as unsigned integers, for all pairs. -/
def Obligations.CmpComparesUnsigned : Prop :=
  ∀ (a b : Byte) (s : State) (ha : a.toNat < 8) (hb : b.toNat < 8),
    exec (.cmp a b) s = .next { s with
      flagE := decide ((s.readReg ⟨a.toNat, ha⟩).toNat = (s.readReg ⟨b.toNat, hb⟩).toNat),
      flagL := decide ((s.readReg ⟨a.toNat, ha⟩).toNat < (s.readReg ⟨b.toNat, hb⟩).toNat),
      flagG := decide ((s.readReg ⟨b.toNat, hb⟩).toNat < (s.readReg ⟨a.toNat, ha⟩).toNat),
      pc := s.pc + 3 }

/-- JMP jumps to the register's byte; JEQ does exactly when E is set and JNE exactly when it is clear, and otherwise they
advance by 2. -/
def Obligations.JumpsGoToRegister : Prop :=
  ∀ (a : Byte) (s : State) (ha : a.toNat < 8),
    exec (.jmp a) s = .next { s with pc := (s.readReg ⟨a.toNat, ha⟩).setWidth 9 } ∧
    exec (.jeq a) s = .next { s with pc := if s.flagE then (s.readReg ⟨a.toNat, ha⟩).setWidth 9 else s.pc + 2 } ∧
    exec (.jne a) s = .next { s with pc := if s.flagE then s.pc + 2 else (s.readReg ⟨a.toNat, ha⟩).setWidth 9 }

/-! ### Frames -/

/-- LDI and MUL change no register but their destination `a`, and nothing else but the pc. -/
def Obligations.LdiMulFrame : Prop :=
  ∀ (i : Instr) (a b : Byte) (s t : State), (i = .ldi a b ∨ i = .mul a b) → exec i s = .next t →
    (∀ r : RegIdx, r.val ≠ a.toNat → t.readReg r = s.readReg r) ∧
    t.flagE = s.flagE ∧ t.flagL = s.flagL ∧ t.flagG = s.flagG ∧
    (∀ x, t.mem.read x = s.mem.read x) ∧ t.out = s.out ∧ t.outOk = s.outOk ∧ statusKeptOrFault i s t

/-- CMP, JMP, JEQ and JNE change no register and no memory; only CMP changes flags. -/
def Obligations.CmpJumpFrame : Prop :=
  ∀ (i : Instr) (a b : Byte) (s t : State), (i = .cmp a b ∨ i = .jmp a ∨ i = .jeq a ∨ i = .jne a) → exec i s = .next t →
    (∀ r : RegIdx, t.readReg r = s.readReg r) ∧
    (i ≠ .cmp a b → t.flagE = s.flagE ∧ t.flagL = s.flagL ∧ t.flagG = s.flagG) ∧
    (∀ x, t.mem.read x = s.mem.read x) ∧ t.out = s.out ∧ t.outOk = s.outOk ∧ statusKeptOrFault i s t

/-- PRN and HLT change no register, flag or memory; only PRN changes the output, and only HLT halts. -/
def Obligations.PrnHltFrame : Prop :=
  ∀ (i : Instr) (a : Byte) (s t : State), (i = .prn a ∨ i = .hlt) → exec i s = .next t →
    (∀ r : RegIdx, t.readReg r = s.readReg r) ∧
    t.flagE = s.flagE ∧ t.flagL = s.flagL ∧ t.flagG = s.flagG ∧
    (∀ x, t.mem.read x = s.mem.read x) ∧
    (i = .hlt → t.out = s.out ∧ t.outOk = s.outOk) ∧ (i = .prn a → statusKeptOrFault i s t)

/-- PUSH and CALL change no register but SP, and no byte of memory but the one `pushSlot` gives as the address to write. -/
def Obligations.PushCallFrame : Prop :=
  ∀ (i : Instr) (a : Byte) (s t : State), (i = .push a ∨ i = .call a) → s.mem.wf → exec i s = .next t →
    (∀ r : RegIdx, r ≠ 7 → t.readReg r = s.readReg r) ∧
    t.flagE = s.flagE ∧ t.flagL = s.flagL ∧ t.flagG = s.flagG ∧
    (∀ (addr : Byte) (u : State), pushSlot s = .ok (addr, u) → ∀ x, x ≠ addr.toNat → t.mem.read x = s.mem.read x) ∧
    (∀ c, pushSlot s = .error c → ∀ x, t.mem.read x = s.mem.read x) ∧
    t.out = s.out ∧ t.outOk = s.outOk ∧ statusKeptOrFault i s t

/-- POP changes no register but `a` and SP, RET none but SP, and neither changes memory: the popped cell keeps its value. That
an increment of SP to 256 faults is decision D8 (log entry 9), and that this fault leaves even `R[a]`, SP and the pc as they
were is decision D11 (`40_execution_loop.md` R114, `60_exceptions.md` R256; log entry 12). -/
def Obligations.PopRetFrame : Prop :=
  ∀ (i : Instr) (a : Byte) (s t : State), (i = .pop a ∨ i = .ret) → exec i s = .next t →
    (∀ r : RegIdx, r ≠ 7 → (i = .pop a → r.val ≠ a.toNat) → t.readReg r = s.readReg r) ∧
    t.flagE = s.flagE ∧ t.flagL = s.flagL ∧ t.flagG = s.flagG ∧
    (∀ x, t.mem.read x = s.mem.read x) ∧ t.out = s.out ∧ t.outOk = s.outOk ∧ statusKeptOrFault i s t

/-! ### Rules about the whole machine -/

/-- `10_state.md` R33: only CMP writes the flags, and it writes all three, whatever they were; JEQ and JNE read E only; no other
instruction reads or writes a flag. -/
def Obligations.FlagsWrittenByCmpReadByJeqJne : Prop :=
  (∀ (i : Instr) (s t : State), (∀ a b, i ≠ .cmp a b) → exec i s = .next t →
    t.flagE = s.flagE ∧ t.flagL = s.flagL ∧ t.flagG = s.flagG) ∧
  (∀ (a b : Byte) (s : State) (e l g : Bool), a.toNat < 8 → b.toNat < 8 →
    exec (.cmp a b) (s.setFlags e l g) = exec (.cmp a b) s) ∧
  (∀ (i : Instr) (s : State) (l g : Bool), (∀ a b, i ≠ .cmp a b) →
    exec i (s.setFlags s.flagE l g) = mapNext (fun t => t.setFlags t.flagE l g) (exec i s)) ∧
  (∀ (i : Instr) (s : State) (e l g : Bool), (∀ a b, i ≠ .cmp a b) → (∀ a, i ≠ .jeq a) → (∀ a, i ≠ .jne a) →
    exec i (s.setFlags e l g) = mapNext (fun t => t.setFlags e l g) (exec i s))

/-- Only PUSH and CALL write memory, and a step of one of them changes at most the byte below SP. -/
def Obligations.MemoryWrittenOnlyByPushCall : Prop :=
  ∀ s t : State, s.mem.wf → step s = .next t →
    ∀ x, t.mem.read x ≠ s.mem.read x →
      x + 1 = s.sp.toNat ∧ ∃ a : Byte, fetch s = .ok (.push a) ∨ fetch s = .ok (.call a)

/-- The output grows by at most one byte a step, by PRN alone, and nothing already sent changes (decision D14). -/
def Obligations.OutputOnlyGrowsByPrn : Prop :=
  ∀ s t : State, step s = .next t →
    t.out = s.out ∨
    ∃ (a : Byte) (h : a.toNat < 8), fetch s = .ok (.prn a) ∧ t.out = s.out ++ [s.readReg ⟨a.toNat, h⟩]

/-- The next pc of every instruction that completes from a pc in memory, as the table of the pc's changes gives it, and no pc
above 256 arises from one in memory (widths and range: decision D3, log entry 6). -/
def Obligations.PcAfterCompletedStep : Prop :=
  ∀ (s t : State) (i : Instr), fetch s = .ok i → step s = .next t → (∀ info, t.status ≠ .fault info) →
    t.pc.toNat ≤ 256 ∧
    (i.pcControl = .autoAdvance → t.pc.toNat = s.pc.toNat + i.length) ∧
    (i = .ret → t.pc.toNat = (s.mem.read s.sp.toNat).toNat) ∧
    (∀ r : RegIdx, i = .jmp (BitVec.ofNat 8 r) → t.pc.toNat = (s.readReg r).toNat) ∧
    (∀ r : RegIdx, i = .call (BitVec.ofNat 8 r) → t.pc.toNat = (t.readReg r).toNat) ∧
    (∀ r : RegIdx, i = .jeq (BitVec.ofNat 8 r) →
      t.pc.toNat = if s.flagE then (s.readReg r).toNat else s.pc.toNat + 2) ∧
    (∀ r : RegIdx, i = .jne (BitVec.ofNat 8 r) →
      t.pc.toNat = if s.flagE then s.pc.toNat + 2 else (s.readReg r).toNat)

/-- Every step keeps the invariant: memory stays canonical, no pc exceeds 258, `running = 1` exactly when
`status = RUNNING`, at most one flag is set, and a faulted machine's pc is its record's (decisions D3, D11). -/
def Obligations.StepKeepsMachineInvariant : Prop :=
  ∀ s t : State, s.Inv → step s = .next t → t.Inv

/-- The state after reset meets the invariant. -/
def Obligations.ResetMeetsMachineInvariant : Prop := State.reset.Inv

/-- The state after every load meets the invariant. -/
def Obligations.LoadedStateMeetsMachineInvariant : Prop :=
  ∀ (image : List Byte) (s : State), loadImage image = .ok s → s.Inv

/-- Equal memories are equal data: two canonical memories that read alike at every address are the same list (log entry 17). -/
def Obligations.CanonicalMemoryIsUnique : Prop :=
  ∀ m n : Memory, m.wf → n.wf → (∀ a, m.read a = n.read a) → m = n

/-- The host's answers reach the machine at PRN only: any other instruction does the same whatever they are, and leaves them as
they are (decision D14, log entry 3). -/
def Obligations.HostAnswersReachPrnOnly : Prop :=
  ∀ (i : Instr) (s : State) (answers : List Bool), (∀ a, i ≠ .prn a) →
    exec i { s with outOk := answers } = mapNext (fun t => { t with outOk := answers }) (exec i s)

/-! ### Programs of a few instructions, whatever the registers -/

/-- The stack round trip: PUSH then POP moves the byte and restores SP, for registers other than R7. -/
def Obligations.PushPopRoundTrip : Prop :=
  ∀ (a b : RegIdx) (s t u : State), a ≠ 7 → b ≠ 7 → s.sp ≠ 0 → s.mem.wf →
    exec (.push (BitVec.ofNat 8 a)) s = .next t → exec (.pop (BitVec.ofNat 8 b)) t = .next u →
    u.readReg b = s.readReg a ∧ u.sp = s.sp

/-- The call round trip: a RET that finds SP and the byte there as CALL left them resumes after the CALL with SP restored. -/
def Obligations.CallRetRoundTrip : Prop :=
  ∀ (a : RegIdx) (s t u v : State), s.pc.toNat ≤ 253 → s.sp ≠ 0 → s.mem.wf →
    exec (.call (BitVec.ofNat 8 a)) s = .next t → u.sp = t.sp → u.mem.read u.sp.toNat = t.mem.read t.sp.toNat →
    exec .ret u = .next v → v.pc.toNat = s.pc.toNat + 2 ∧ v.sp = s.sp

/-- A JMP to its own address loops for ever: the step answers the same state, so after any number of steps the machine has
raised no fault, has not ended and stands where it was. -/
def Obligations.JumpToItselfNeverEnds : Prop :=
  ∀ (s : State) (r : RegIdx) (rest : List Byte), s.status = .running →
    decode (codeBytes s) = .ok (.jmp (BitVec.ofNat 8 r), rest) → (s.readReg r).toNat = s.pc.toNat →
    step s = .next s ∧ ∀ fuel, Sys2Proof.core.run fuel s = .next s ∧ runFor fuel s = s

/-- The status codes: none while running, 0 for a normal halt, and a distinct nonzero code for each class of fatal error and for
a load failure (the numbers are decision D13, log entry 13). -/
def Obligations.StatusCodesAreDistinct : Prop :=
  ∀ (pc : Pc) (op : Option Byte) (b : Byte) (k : BoundKind) (v : Int) (name : String) (e : LoadError),
    Status.running.code = none ∧ Status.halted.code = some 0 ∧ e.code = 1 ∧
    (Status.fault ⟨pc, op, .unknownOpcode b pc⟩).code = some 2 ∧
    (Status.fault ⟨pc, op, .outOfBounds k v⟩).code = some 3 ∧
    (Status.fault ⟨pc, op, .unsupportedAluOperation name⟩).code = some 4 ∧
    (Status.fault ⟨pc, op, .outputError⟩).code = some 5
end

