-- ==== Sys2Proof/Laws/Decode.lean ====
section
/-! SUPPORT. What the dispatch and the byte source of the decoder answer, and what a decoding has read. -/

namespace Sys2Proof

/-- The list of the mnemonics is complete. -/
theorem Mnemonic.mem_all (m : Mnemonic) : m ∈ Mnemonic.all := by
  cases m <;> decide

/-- The length bits of every opcode agree with its instruction's format (`30_encoding.md` R77). -/
theorem opLength_opcodeMap (m : Mnemonic) : opLength (opcodeMap m) = m.format.operandBytes + 1 := by
  cases m <;> decide

/-- An instruction has as many operand bytes as its format says. -/
theorem Instr.operands_length (i : Instr) : i.operands.length = i.mnemonic.format.operandBytes := by
  cases i <;> rfl

/-- The length decode of an instruction's opcode gives the length of its format (`30_encoding.md` R72, R77). -/
theorem Instr.length_eq (i : Instr) : i.length = i.mnemonic.format.operandBytes + 1 := opLength_opcodeMap _

/-- A byte dispatches only to an instruction whose opcode it is. -/
theorem dispatch_some {map : OpcodeMap} {op : Byte} {m : Mnemonic} (h : dispatch map op = some m) : map m = op := by
  simpa using List.find?_some h

/-- A byte does not dispatch exactly when it is no instruction's opcode. -/
theorem dispatch_none {map : OpcodeMap} {op : Byte} : dispatch map op = none ↔ ∀ m, map m ≠ op := by
  simp [dispatch, Mnemonic.mem_all]

/-- In a map in which no two instructions share a byte, every opcode dispatches to its own instruction. -/
theorem dispatch_opcode {map : OpcodeMap} (h : ∀ m n, map m = map n → m = n) (m : Mnemonic) :
    dispatch map (map m) = some m := by
  cases hd : dispatch map (map m) with
  | none => exact absurd rfl (dispatch_none.1 hd m)
  | some n => exact congrArg some (h n m (dispatch_some hd))

theorem listByte_eq_ok {bytes : List Byte} {k : Nat} {b : Byte} : listByte bytes k = .ok b ↔ bytes[k]? = some b := by
  unfold listByte
  cases bytes[k]? <;> simp

/-- What a successful decoding has read: the opcode byte of its instruction, then its operand bytes. -/
theorem decodeFrom_eq_ok {ε : Type} {map : OpcodeMap} {read : Nat → Except ε Byte} {unknown : Byte → ε} {i : Instr}
    (h : decodeFrom map read unknown = .ok i) :
    read 0 = .ok (map i.mnemonic) ∧ ∀ k (hk : k < i.operands.length), read (k + 1) = .ok i.operands[k] := by
  unfold decodeFrom at h
  obtain ⟨op, h0, h⟩ := bind_eq_ok.1 h
  cases hd : dispatch map op with
  | none => simp [hd] at h
  | some m =>
    have hop := dispatch_some hd
    cases m <;> simp only [hd, bind_eq_ok, pure_eq_ok, Except.ok.injEq] at h
    case hlt | ret =>
      subst h
      exact ⟨hop ▸ h0, fun k hk => absurd hk (Nat.not_lt_zero k)⟩
    case ldi | mul | cmp =>
      obtain ⟨a, ha, b, hb, rfl⟩ := h
      refine ⟨hop ▸ h0, fun k hk => ?_⟩
      match k, hk with
      | 0, _ => exact ha
      | 1, _ => exact hb
    all_goals
      obtain ⟨a, ha, rfl⟩ := h
      refine ⟨hop ▸ h0, fun k hk => ?_⟩
      match k, hk with
      | 0, _ => exact ha

/-- Bytes that hold an instruction's opcode and operands are decoded to it. -/
theorem decodeFrom_of_reads {ε : Type} {map : OpcodeMap} (hmap : ∀ m n, map m = map n → m = n)
    {read : Nat → Except ε Byte} {unknown : Byte → ε} {i : Instr} (h0 : read 0 = .ok (map i.mnemonic))
    (h : ∀ k (hk : k < i.operands.length), read (k + 1) = .ok i.operands[k]) : decodeFrom map read unknown = .ok i := by
  unfold decodeFrom
  rw [h0]
  cases i with
  | hlt | ret => simp [dispatch_opcode hmap, Instr.mnemonic]
  | ldi a b | mul a b | cmp a b =>
    have ha := h 0 (by simp [Instr.operands])
    have hb := h 1 (by simp [Instr.operands])
    simp [Instr.operands] at ha hb
    simp [dispatch_opcode hmap, Instr.mnemonic, ha, hb]
  | prn a | push a | pop a | call a | jmp a | jeq a | jne a =>
    have ha := h 0 (by simp [Instr.operands])
    simp [Instr.operands] at ha
    simp [dispatch_opcode hmap, Instr.mnemonic, ha]

end Sys2Proof
end

