-- ==== Sys2Proof/Laws/Memory.lean ====
section
/-! SUPPORT. The laws of memory as data: a read after a write, and that every memory operation keeps the canonical form. -/

namespace Sys2Proof.Machine

@[simp] theorem Memory.read_nil (a : Nat) : Memory.read [] a = Config.unlistedByte := rfl

theorem Memory.read_cons (c : Host.Cell) (m : Memory) (a : Nat) :
    Memory.read (c :: m) a = if c.1 = a then c.2 else Memory.read m a := rfl

/-- An address below every listed one reads as unlisted. -/
theorem Memory.read_of_lt {m : Memory} {a : Nat} (h : ∀ c ∈ m, a < c.1) : m.read a = Config.unlistedByte := by
  induction m with
  | nil => rfl
  | cons c m ih =>
    have hc := h c (by simp)
    simp only [Memory.read_cons, Nat.ne_of_gt hc, if_false]
    exact ih fun d hd => h d (by simp [hd])

/-- Reading a memory with a cell put before addresses that lie above it. -/
theorem Memory.read_putCell {m : Memory} {a : Nat} (h : ∀ c ∈ m, a < c.1) (b : Nat) (v : Byte) :
    (Memory.putCell a v m).read b = if b = a then v else m.read b := by
  unfold Memory.putCell
  split
  · rename_i hv
    by_cases hb : b = a
    · simp [hb, hv, Memory.read_of_lt h]
    · simp [hb]
  · by_cases hb : b = a
    · simp [Memory.read_cons, hb]
    · simp [Memory.read_cons, hb, Ne.symm hb]

/-- Reading after a write, in memory whose addresses rise (`20_memory.md` R56, R61). -/
theorem Memory.read_write {m : Memory} (h : m.Pairwise (fun x y => x.1 < y.1)) (a b : Nat) (v : Byte) :
    (m.write a v).read b = if b = a then v else m.read b := by
  induction m with
  | nil => exact Memory.read_putCell (by simp) b v
  | cons c m ih =>
    have hm := List.pairwise_cons.1 h
    unfold Memory.write
    split
    · rename_i hlt
      refine Memory.read_putCell (fun d hd => ?_) b v
      rcases List.mem_cons.1 hd with rfl | hd
      · exact hlt
      · exact Nat.lt_trans hlt (hm.1 d hd)
    · split
      · rename_i heq
        subst heq
        rw [Memory.read_putCell (fun d hd => hm.1 d hd), Memory.read_cons]
        split
        · rfl
        · rename_i hb
          simp [Ne.symm hb]
      · rename_i hne
        rw [Memory.read_cons, Memory.read_cons, ih hm.2]
        by_cases hb : c.1 = b
        · subst hb
          simp [Ne.symm hne]
        · simp [hb]

@[simp] theorem Memory.read_write_same {m : Memory} (h : m.wf) (a : Nat) (v : Byte) : (m.write a v).read a = v := by
  simp [Memory.read_write h.1]

theorem Memory.read_write_other {m : Memory} (h : m.wf) {a b : Nat} (v : Byte) (hb : b ≠ a) :
    (m.write a v).read b = m.read b := by
  simp [Memory.read_write h.1, hb]

theorem Memory.mem_putCell {m : Memory} {a : Nat} {v : Byte} {c : Host.Cell} (h : c ∈ Memory.putCell a v m) :
    c ∈ m ∨ (c = (a, v) ∧ v ≠ Config.unlistedByte) := by
  unfold Memory.putCell at h
  split at h
  · exact .inl h
  · rename_i hv
    exact (List.mem_cons.1 h).elim (fun e => .inr ⟨e, hv⟩) .inl

/-- A write lists no address but those listed before and its own. -/
theorem Memory.mem_write {m : Memory} {a : Nat} {v : Byte} {c : Host.Cell} (h : c ∈ m.write a v) :
    c ∈ m ∨ (c = (a, v) ∧ v ≠ Config.unlistedByte) := by
  induction m with
  | nil => exact Memory.mem_putCell h
  | cons d m ih =>
    unfold Memory.write at h
    split at h
    · exact Memory.mem_putCell h
    · split at h
      · exact (Memory.mem_putCell h).imp_left (List.mem_cons_of_mem d)
      · rcases List.mem_cons.1 h with h | h
        · exact .inl (h ▸ List.mem_cons_self)
        · exact (ih h).imp_left (List.mem_cons_of_mem _)

theorem Memory.putCell_pairwise {m : Memory} {a : Nat} (h : m.Pairwise (fun x y => x.1 < y.1)) (ha : ∀ c ∈ m, a < c.1)
    (v : Byte) : (Memory.putCell a v m).Pairwise (fun x y => x.1 < y.1) := by
  unfold Memory.putCell
  split
  · exact h
  · exact List.pairwise_cons.2 ⟨ha, h⟩

theorem Memory.write_pairwise {m : Memory} (h : m.Pairwise (fun x y => x.1 < y.1)) (a : Nat) (v : Byte) :
    (m.write a v).Pairwise (fun x y => x.1 < y.1) := by
  induction m with
  | nil => exact Memory.putCell_pairwise h (by simp) v
  | cons d m ih =>
    have hm := List.pairwise_cons.1 h
    unfold Memory.write
    split
    · rename_i hlt
      refine Memory.putCell_pairwise h (fun c hc => ?_) v
      rcases List.mem_cons.1 hc with rfl | hc
      · exact hlt
      · exact Nat.lt_trans hlt (hm.1 c hc)
    · split
      · rename_i heq
        exact Memory.putCell_pairwise hm.2 (fun c hc => heq ▸ hm.1 c hc) v
      · rename_i hge hne
        refine List.pairwise_cons.2 ⟨fun c hc => ?_, ih hm.2⟩
        rcases Memory.mem_write hc with hc | ⟨rfl, -⟩
        · exact hm.1 c hc
        · show d.1 < a
          omega

/-- A write inside the address space keeps the canonical form. -/
theorem Memory.write_wf {m : Memory} (h : m.wf) {a : Nat} (ha : a < Config.memSize) (v : Byte) : (m.write a v).wf :=
  ⟨Memory.write_pairwise h.1 a v, fun c hc => by
    rcases Memory.mem_write hc with hc | ⟨rfl, hv⟩
    · exact h.2 c hc
    · exact ⟨ha, hv⟩⟩

/-- Storing bytes keeps the canonical form: the load and `withFetchWord` do. -/
theorem Memory.storeBytes_wf {m : Memory} (h : m.wf) (a : Nat) (bytes : List Byte) : (m.storeBytes a bytes).wf := by
  induction bytes generalizing m a with
  | nil => exact h
  | cons v vs ih =>
    unfold Memory.storeBytes
    split
    · exact ih (Memory.write_wf h ‹_› v) _
    · exact ih h _

theorem Memory.reset_wf : State.reset.mem.wf := by decide

end Sys2Proof.Machine
end

