-- ==== Sys2Proof/Laws/State.lean ====
section
/-! SUPPORT. One lemma per field of State per update, so that no proof unfolds a record update. -/

namespace Sys2Proof.Machine

variable (s : State)

@[simp] theorem State.setPc_mem (x : Pc) : (s.setPc x).mem = s.mem := rfl
@[simp] theorem State.setPc_regs (x : Pc) : (s.setPc x).regs = s.regs := rfl
@[simp] theorem State.setPc_pc (x : Pc) : (s.setPc x).pc = x := rfl
@[simp] theorem State.setPc_flagE (x : Pc) : (s.setPc x).flagE = s.flagE := rfl
@[simp] theorem State.setPc_flagL (x : Pc) : (s.setPc x).flagL = s.flagL := rfl
@[simp] theorem State.setPc_flagG (x : Pc) : (s.setPc x).flagG = s.flagG := rfl
@[simp] theorem State.setPc_running (x : Pc) : (s.setPc x).running = s.running := rfl
@[simp] theorem State.setPc_status (x : Pc) : (s.setPc x).status = s.status := rfl
@[simp] theorem State.setPc_out (x : Pc) : (s.setPc x).out = s.out := rfl
@[simp] theorem State.setPc_outOk (x : Pc) : (s.setPc x).outOk = s.outOk := rfl

@[simp] theorem State.writeReg_mem (i : RegIdx) (v : Byte) : (s.writeReg i v).mem = s.mem := rfl
@[simp] theorem State.writeReg_regs (i : RegIdx) (v : Byte) : (s.writeReg i v).regs = s.regs.set i v := rfl
@[simp] theorem State.writeReg_pc (i : RegIdx) (v : Byte) : (s.writeReg i v).pc = s.pc := rfl
@[simp] theorem State.writeReg_flagE (i : RegIdx) (v : Byte) : (s.writeReg i v).flagE = s.flagE := rfl
@[simp] theorem State.writeReg_flagL (i : RegIdx) (v : Byte) : (s.writeReg i v).flagL = s.flagL := rfl
@[simp] theorem State.writeReg_flagG (i : RegIdx) (v : Byte) : (s.writeReg i v).flagG = s.flagG := rfl
@[simp] theorem State.writeReg_running (i : RegIdx) (v : Byte) : (s.writeReg i v).running = s.running := rfl
@[simp] theorem State.writeReg_status (i : RegIdx) (v : Byte) : (s.writeReg i v).status = s.status := rfl
@[simp] theorem State.writeReg_out (i : RegIdx) (v : Byte) : (s.writeReg i v).out = s.out := rfl
@[simp] theorem State.writeReg_outOk (i : RegIdx) (v : Byte) : (s.writeReg i v).outOk = s.outOk := rfl

@[simp] theorem State.setFlags_mem (e l g : Bool) : (s.setFlags e l g).mem = s.mem := rfl
@[simp] theorem State.setFlags_regs (e l g : Bool) : (s.setFlags e l g).regs = s.regs := rfl
@[simp] theorem State.setFlags_pc (e l g : Bool) : (s.setFlags e l g).pc = s.pc := rfl
@[simp] theorem State.setFlags_flagE (e l g : Bool) : (s.setFlags e l g).flagE = e := rfl
@[simp] theorem State.setFlags_flagL (e l g : Bool) : (s.setFlags e l g).flagL = l := rfl
@[simp] theorem State.setFlags_flagG (e l g : Bool) : (s.setFlags e l g).flagG = g := rfl
@[simp] theorem State.setFlags_running (e l g : Bool) : (s.setFlags e l g).running = s.running := rfl
@[simp] theorem State.setFlags_status (e l g : Bool) : (s.setFlags e l g).status = s.status := rfl
@[simp] theorem State.setFlags_out (e l g : Bool) : (s.setFlags e l g).out = s.out := rfl
@[simp] theorem State.setFlags_outOk (e l g : Bool) : (s.setFlags e l g).outOk = s.outOk := rfl

@[simp] theorem State.halt_mem : (s.halt).mem = s.mem := rfl
@[simp] theorem State.halt_regs : (s.halt).regs = s.regs := rfl
@[simp] theorem State.halt_pc : (s.halt).pc = s.pc := rfl
@[simp] theorem State.halt_flagE : (s.halt).flagE = s.flagE := rfl
@[simp] theorem State.halt_flagL : (s.halt).flagL = s.flagL := rfl
@[simp] theorem State.halt_flagG : (s.halt).flagG = s.flagG := rfl
@[simp] theorem State.halt_running : (s.halt).running = false := rfl
@[simp] theorem State.halt_status : (s.halt).status = .halted := rfl
@[simp] theorem State.halt_out : (s.halt).out = s.out := rfl
@[simp] theorem State.halt_outOk : (s.halt).outOk = s.outOk := rfl

@[simp] theorem State.takeFault_mem (op : Option Byte) (c : FaultCause) : (s.takeFault op c).mem = s.mem := rfl
@[simp] theorem State.takeFault_regs (op : Option Byte) (c : FaultCause) : (s.takeFault op c).regs = s.regs := rfl
@[simp] theorem State.takeFault_pc (op : Option Byte) (c : FaultCause) : (s.takeFault op c).pc = s.pc := rfl
@[simp] theorem State.takeFault_flagE (op : Option Byte) (c : FaultCause) : (s.takeFault op c).flagE = s.flagE := rfl
@[simp] theorem State.takeFault_flagL (op : Option Byte) (c : FaultCause) : (s.takeFault op c).flagL = s.flagL := rfl
@[simp] theorem State.takeFault_flagG (op : Option Byte) (c : FaultCause) : (s.takeFault op c).flagG = s.flagG := rfl
@[simp] theorem State.takeFault_running (op : Option Byte) (c : FaultCause) : (s.takeFault op c).running = false := rfl
@[simp] theorem State.takeFault_status (op : Option Byte) (c : FaultCause) : (s.takeFault op c).status = .fault ⟨s.pc, op, c⟩ := rfl
@[simp] theorem State.takeFault_out (op : Option Byte) (c : FaultCause) : (s.takeFault op c).out = s.out := rfl
@[simp] theorem State.takeFault_outOk (op : Option Byte) (c : FaultCause) : (s.takeFault op c).outOk = s.outOk := rfl

@[simp] theorem State.setPc_readReg (x : Pc) (i : RegIdx) : (s.setPc x).readReg i = s.readReg i := rfl
@[simp] theorem State.setPc_sp (x : Pc) : (s.setPc x).sp = s.sp := rfl
@[simp] theorem State.setFlags_readReg (e l g : Bool) (i : RegIdx) : (s.setFlags e l g).readReg i = s.readReg i := rfl
@[simp] theorem State.setFlags_sp (e l g : Bool) : (s.setFlags e l g).sp = s.sp := rfl
@[simp] theorem State.halt_readReg (i : RegIdx) : (s.halt).readReg i = s.readReg i := rfl
@[simp] theorem State.halt_sp : (s.halt).sp = s.sp := rfl
@[simp] theorem State.takeFault_readReg (op : Option Byte) (c : FaultCause) (i : RegIdx) : (s.takeFault op c).readReg i = s.readReg i := rfl
@[simp] theorem State.takeFault_sp (op : Option Byte) (c : FaultCause) : (s.takeFault op c).sp = s.sp := rfl

/-- Reading a register after writing one (`10_state.md` R21: every register is readable and writable). -/
theorem State.writeReg_readReg (i j : RegIdx) (v : Byte) :
    (s.writeReg i v).readReg j = if j = i then v else s.readReg j := by
  simp only [State.writeReg, State.readReg, Vector.get_eq_getElem, Vector.getElem_set, Fin.ext_iff, eq_comm]

@[simp] theorem State.writeReg_readReg_same (i : RegIdx) (v : Byte) : (s.writeReg i v).readReg i = v := by
  simp [State.writeReg_readReg]

theorem State.writeReg_readReg_other (i j : RegIdx) (v : Byte) (h : j ≠ i) :
    (s.writeReg i v).readReg j = s.readReg j := by
  simp [State.writeReg_readReg, h]

/-- The stack pointer after writing a register. -/
theorem State.writeReg_sp (i : RegIdx) (v : Byte) : (s.writeReg i v).sp = if Config.spIndex = i then v else s.sp :=
  s.writeReg_readReg i Config.spIndex v

/-- The flags after a comparison (`45_compare.md` R210). -/
theorem State.compareFlags_eq (x y : Byte) :
    s.compareFlags x y = s.setFlags (x = y) (x.toNat < y.toNat) (y.toNat < x.toNat) := by
  unfold State.compareFlags
  by_cases h : x = y
  · simp [h]
  · have hne : x.toNat ≠ y.toNat := fun e => h (BitVec.eq_of_toNat_eq e)
    by_cases hl : x.toNat < y.toNat
    · simp [h, hl, Nat.not_lt.mpr (Nat.le_of_lt hl)]
    · have hg : y.toNat < x.toNat := by omega
      simp [h, hl, hg]

end Sys2Proof.Machine
end

