-- ==== Sys2Proof/Laws/Ops.lean ====
section
/-! SUPPORT. For each shared operation of the machine, one lemma that says everything it can do. -/

namespace Sys2Proof.Machine

variable {s t : State}

/-! ### Values -/

@[simp] theorem zext9_toNat (v : Byte) : (zext9 v).toNat = v.toNat := by
  simp only [zext9, BitVec.toNat_setWidth]
  have := v.isLt
  omega

@[simp] theorem trunc8_toNat (n : Nat) : (trunc8 n).toNat = n % 256 := BitVec.toNat_ofNat n 8

/-- `checked8` answers exactly the byte of its value, and only in 0 to 255. -/
theorem checked8_eq_ok {v : Int} {b : Byte} : checked8 v = .ok b ↔ v = b.toNat := by
  have hb := b.isLt
  unfold checked8
  split
  · rename_i h
    simp only [Except.ok.injEq]
    constructor
    · rintro rfl
      simp only [BitVec.toNat_ofInt]
      omega
    · rintro rfl
      simp
  · simp only [reduceCtorEq, false_iff]
    rintro rfl
    omega

theorem checked8_eq_error {v : Int} {c : FaultCause} :
    checked8 v = .error c ↔ (v < 0 ∨ 255 < v) ∧ c = .outOfBounds .value v := by
  unfold checked8
  split
  · simp only [reduceCtorEq, false_iff]
    omega
  · simp only [Except.error.injEq, eq_comm (b := c)]
    constructor
    · rintro rfl
      exact ⟨by omega, rfl⟩
    · exact fun h => h.2

/-! ### Memory accesses -/

theorem memRead_eq_ok {a : Nat} {b : Byte} : memRead a s = .ok b ↔ a < 256 ∧ b = s.mem.read a := by
  unfold memRead
  split <;> simp_all [eq_comm]

theorem memRead_eq_error {a : Nat} {c : FaultCause} :
    memRead a s = .error c ↔ 256 ≤ a ∧ c = .outOfBounds .memory a := by
  unfold memRead
  split <;> simp_all [eq_comm]

theorem memWrite_eq_ok {a : Nat} {v : Byte} :
    memWrite a v s = .ok t ↔ a < 256 ∧ t = { s with mem := s.mem.write a v } := by
  unfold memWrite
  split <;> simp_all [eq_comm]

/-- A byte is always an address (`43_stack.md` R170: the written address is always in range). -/
@[simp] theorem memWrite_byte (a v : Byte) : memWrite a.toNat v s = .ok { s with mem := s.mem.write a.toNat v } :=
  memWrite_eq_ok.2 ⟨a.isLt, rfl⟩

@[simp] theorem memRead_byte (a : Byte) : memRead a.toNat s = .ok (s.mem.read a.toNat) :=
  memRead_eq_ok.2 ⟨a.isLt, rfl⟩

/-! ### Register operands -/

theorem regIndex_eq_ok {f : Byte} {i : RegIdx} : regIndex f = .ok i ↔ f.toNat = i.val := by
  have := i.isLt
  unfold regIndex
  split
  · simp [Fin.ext_iff]
  · simp only [reduceCtorEq, false_iff]
    omega

theorem regIndex_of_lt {f : Byte} (h : f.toNat < 8) : regIndex f = .ok ⟨f.toNat, h⟩ := dif_pos h

theorem regIndex_eq_error {f : Byte} {c : FaultCause} :
    regIndex f = .error c ↔ 8 ≤ f.toNat ∧ c = .outOfBounds .register f.toNat := by
  unfold regIndex
  split
  · simp only [reduceCtorEq, false_iff]
    omega
  · simp only [Except.error.injEq, eq_comm (b := c), iff_and_self]
    omega

theorem regIndexPair_eq_ok {a b : Byte} {p : RegIdx × RegIdx} :
    regIndexPair a b = .ok p ↔ a.toNat = p.1.val ∧ b.toNat = p.2.val := by
  obtain ⟨i, j⟩ := p
  simp [regIndexPair, bind_eq_ok, regIndex_eq_ok]

theorem regIndexPair_of_lt {a b : Byte} (ha : a.toNat < 8) (hb : b.toNat < 8) :
    regIndexPair a b = .ok (⟨a.toNat, ha⟩, ⟨b.toNat, hb⟩) := regIndexPair_eq_ok.2 ⟨rfl, rfl⟩

/-- Field `a` is checked before field `b` (`40_execution_loop.md` R107). -/
theorem regIndexPair_eq_error {a b : Byte} {c : FaultCause} :
    regIndexPair a b = .error c ↔
      (8 ≤ a.toNat ∧ c = .outOfBounds .register a.toNat) ∨
      (a.toNat < 8 ∧ 8 ≤ b.toNat ∧ c = .outOfBounds .register b.toNat) := by
  by_cases ha : a.toNat < 8
  · simp [regIndexPair, regIndex_of_lt ha, bind_eq_error, regIndex_eq_error, ha]
  · have : regIndex a = .error (.outOfBounds .register a.toNat) := regIndex_eq_error.2 ⟨by omega, rfl⟩
    simp only [regIndexPair, this, error_bind, Except.error.injEq, ha, false_and, or_false]
    exact ⟨fun h => ⟨by omega, h.symm⟩, fun h => h.2.symm⟩

/-! ### The stack primitives -/

/-- A push decrements a nonzero SP and writes at the new SP. -/
theorem pushSlot_eq_ok {p : Byte × State} :
    pushSlot s = .ok p ↔ s.sp.toNat = p.1.toNat + 1 ∧ p.2 = s.writeReg Config.spIndex p.1 := by
  obtain ⟨addr, t⟩ := p
  simp only [pushSlot, bind_eq_ok, checked8_eq_ok, pure_eq_ok, Except.ok.injEq, Prod.mk.injEq]
  constructor
  · rintro ⟨b, hb, rfl, rfl⟩
    exact ⟨by omega, rfl⟩
  · rintro ⟨h, rfl⟩
    exact ⟨addr, by omega, rfl, rfl⟩

/-- A push faults exactly at SP = 0 (`43_stack.md` R170). -/
theorem pushSlot_eq_error {c : FaultCause} :
    pushSlot s = .error c ↔ s.sp = 0 ∧ c = .outOfBounds .value (-1) := by
  have hz : s.sp = 0 ↔ s.sp.toNat = 0 := by rw [← BitVec.toNat_inj]; rfl
  have hlt := s.sp.isLt
  simp only [pushSlot, bind_eq_error, checked8_eq_error, pure_eq_ok, reduceCtorEq, and_false, exists_false,
    or_false, hz]
  constructor
  · rintro ⟨h, rfl⟩
    have : s.sp.toNat = 0 := by omega
    simp [this]
  · rintro ⟨h, rfl⟩
    simp [h]

@[simp] theorem popRead_eq : popRead s = .ok (s.mem.read s.sp.toNat) := memRead_byte s.sp

theorem popBump_eq_ok : popBump s = .ok t ↔ ∃ sp : Byte, sp.toNat = s.sp.toNat + 1 ∧ t = s.writeReg Config.spIndex sp := by
  simp only [popBump, bind_eq_ok, checked8_eq_ok, pure_eq_ok, Except.ok.injEq]
  constructor
  · rintro ⟨b, hb, rfl⟩
    exact ⟨b, by omega, rfl⟩
  · rintro ⟨b, hb, rfl⟩
    exact ⟨b, by omega, rfl⟩

/-- A pop faults exactly when the increment gives 256 (`43_stack.md` R171). -/
theorem popBump_eq_error {c : FaultCause} :
    popBump s = .error c ↔ s.sp.toNat = 255 ∧ c = .outOfBounds .value 256 := by
  have hlt := s.sp.isLt
  simp only [popBump, bind_eq_error, checked8_eq_error, pure_eq_ok, reduceCtorEq, and_false, exists_false,
    or_false]
  constructor
  · rintro ⟨h, rfl⟩
    have : s.sp.toNat = 255 := by omega
    simp [this]
  · rintro ⟨h, rfl⟩
    simp [h]

/-! ### Output and the ALU -/

theorem emit_eq_ok {v : Byte} :
    emit v s = .ok t ↔ s.nextOutOk = true ∧ t = { s with out := s.out ++ [v], outOk := s.outOk.tail } := by
  unfold emit
  split <;> rename_i h <;> simp [h, eq_comm (a := t)]

theorem emit_eq_error {v : Byte} {c : FaultCause} : emit v s = .error c ↔ s.nextOutOk = false ∧ c = .outputError := by
  unfold emit
  split <;> rename_i h <;> simp [h, eq_comm (a := c)]

/-- The ALU completes by writing one register with a truncated result (`42_alu_multiply.md` R150). -/
theorem alu_eq_ok {op : AluOp} {a b : RegIdx} :
    alu op a b s = .ok t ↔
      (op = .add ∧ t = s.writeReg a (trunc8 ((s.readReg a).toNat + (s.readReg b).toNat))) ∨
      (op = .mul ∧ t = s.writeReg a (trunc8 ((s.readReg a).toNat * (s.readReg b).toNat))) := by
  cases op <;> simp [alu, eq_comm]

/-! ### Running a handler -/

theorem advance_autoAdvance {i : Instr} (h : i.pcControl = .autoAdvance) :
    advance i s = s.setPc (s.pc + BitVec.ofNat 9 i.length) := by
  simp [advance, h]

theorem advance_handlerControlsPc {i : Instr} (h : i.pcControl = .handlerControlsPc) : advance i s = s := by
  simp [advance, h]

/-! The pc's change by the loop, for each instruction (`10_state.md` R30). -/

@[simp] theorem advance_hlt : advance .hlt s = s.setPc (s.pc + 1) := by
  rw [advance_autoAdvance rfl, Instr.length_eq]; rfl

@[simp] theorem advance_ldi (a imm : Byte) : advance (.ldi a imm) s = s.setPc (s.pc + 3) := by
  rw [advance_autoAdvance rfl, Instr.length_eq]; rfl

@[simp] theorem advance_prn (a : Byte) : advance (.prn a) s = s.setPc (s.pc + 2) := by
  rw [advance_autoAdvance rfl, Instr.length_eq]; rfl

@[simp] theorem advance_mul (a b : Byte) : advance (.mul a b) s = s.setPc (s.pc + 3) := by
  rw [advance_autoAdvance rfl, Instr.length_eq]; rfl

@[simp] theorem advance_push (a : Byte) : advance (.push a) s = s.setPc (s.pc + 2) := by
  rw [advance_autoAdvance rfl, Instr.length_eq]; rfl

@[simp] theorem advance_pop (a : Byte) : advance (.pop a) s = s.setPc (s.pc + 2) := by
  rw [advance_autoAdvance rfl, Instr.length_eq]; rfl

@[simp] theorem advance_cmp (a b : Byte) : advance (.cmp a b) s = s.setPc (s.pc + 3) := by
  rw [advance_autoAdvance rfl, Instr.length_eq]; rfl

@[simp] theorem advance_call (a : Byte) : advance (.call a) s = s := advance_handlerControlsPc rfl

@[simp] theorem advance_ret : advance .ret s = s := advance_handlerControlsPc rfl

@[simp] theorem advance_jmp (a : Byte) : advance (.jmp a) s = s := advance_handlerControlsPc rfl

@[simp] theorem advance_jeq (a : Byte) : advance (.jeq a) s = s := advance_handlerControlsPc rfl

@[simp] theorem advance_jne (a : Byte) : advance (.jne a) s = s := advance_handlerControlsPc rfl

/-- What the end of a step can be: the handler completed and the loop advanced, or it raised and its fault is taken in the
state before the step. It never stops. -/
theorem perform_eq_next {i : Instr} {r : Raises State} :
    perform i s r = .next t ↔
      (∃ u, r = .ok u ∧ t = advance i u) ∨ (∃ c, r = .error c ∧ t = s.takeFault (some i.opcode) c) := by
  cases r <;> simp [perform, eq_comm]

theorem perform_ok {i : Instr} (u : State) : perform i s (.ok u) = .next (advance i u) := rfl

theorem perform_error {i : Instr} (c : FaultCause) : perform i s (.error c) = .next (s.takeFault (some i.opcode) c) := rfl

/-- Every step of an instruction ends in a next state. -/
theorem perform_next (i : Instr) (r : Raises State) : ∃ t, perform i s r = .next t := by
  cases r <;> simp [perform]

theorem branch_eq (taken : Bool) (target : Byte) :
    branch taken target s = s.setPc (if taken then zext9 target else s.pc + 2) := by
  cases taken <;> rfl

end Sys2Proof.Machine
end

