-- ==== Sys2Proof/Laws/Step.lean ====
section
/-! SUPPORT. Once for all proofs: what `exec` and `step` can do. -/

namespace Sys2Proof.Machine

variable {s t : State}

/-- Executing an instruction is the end of its step on what its checks and handler answer. -/
theorem exec_eq_perform (i : Instr) (s : State) : ∃ r : Raises State, exec i s = perform i s r := by
  cases i <;>
    simp only [exec, execHlt, execLdi, execPrn, execMul, execPush, execPop, execCall, execRet, execCmp, execJmp, execJeq,
      execJne] <;>
    exact ⟨_, rfl⟩

/-- A step ends in a next state only from `RUNNING`: the fetched instruction's, or a fault of the fetch. -/
theorem step_eq_next :
    step s = .next t ↔
      s.status = .running ∧
        ((∃ i, fetch s = .ok i ∧ exec i s = .next t) ∨
         (∃ c, fetch s = .error c ∧ t = s.takeFault (fetchedOpcode s) c)) := by
  unfold step
  cases s.status with
  | halted => simp
  | fault info => simp
  | running => cases fetch s <;> simp [eq_comm]

/-- A running machine with a fetched instruction executes it. -/
theorem step_of_fetch {i : Instr} (hs : s.status = .running) (hf : fetch s = .ok i) : step s = exec i s := by
  simp [step, hs, hf]

/-- A running machine whose fetch raises takes the fault. -/
theorem step_of_fetch_error {c : FaultCause} (hs : s.status = .running) (hf : fetch s = .error c) :
    step s = .next (s.takeFault (fetchedOpcode s) c) := by
  simp [step, hs, hf]

/-- `withFetchWord` keeps memory's canonical form and changes nothing else. -/
theorem withFetchWord_wf (h : s.mem.wf) (nbits w : Nat) : (s.withFetchWord nbits w).mem.wf :=
  Memory.storeBytes_wf h _ _

end Sys2Proof.Machine
end

