-- ==== Sys2Proof/Laws/Exec.lean ====
section
/-! SUPPORT. The inversion of `exec`: everything an instruction can do when it answers a next state. An invariant of the
step is proved from these cases, without unfolding a meaning again. -/

namespace Sys2Proof.Machine

/-- What each instruction has done when it completed (`41_load_output_halt.md` to `46_jumps.md`). -/
inductive Effect (s : State) : Instr → State → Prop
  | hlt : Effect s .hlt (s.halt.setPc (s.pc + 1))
  | ldi (a imm : Byte) (r : RegIdx) (ha : a.toNat = r.val) :
      Effect s (.ldi a imm) ((s.writeReg r imm).setPc (s.pc + 3))
  | prn (a : Byte) (r : RegIdx) (ha : a.toNat = r.val) (hok : s.nextOutOk = true) :
      Effect s (.prn a) { s with out := s.out ++ [s.readReg r], outOk := s.outOk.tail, pc := s.pc + 2 }
  | mul (a b : Byte) (r q : RegIdx) (ha : a.toNat = r.val) (hb : b.toNat = q.val) :
      Effect s (.mul a b) ((s.writeReg r (trunc8 ((s.readReg r).toNat * (s.readReg q).toNat))).setPc (s.pc + 3))
  | push (a : Byte) (r : RegIdx) (addr : Byte) (ha : a.toNat = r.val) (hsp : s.sp.toNat = addr.toNat + 1) :
      Effect s (.push a) { s.writeReg Config.spIndex addr with
        mem := s.mem.write addr.toNat ((s.writeReg Config.spIndex addr).readReg r), pc := s.pc + 2 }
  | pop (a : Byte) (r : RegIdx) (sp : Byte) (ha : a.toNat = r.val)
      (hsp : sp.toNat = (s.writeReg r (s.mem.read s.sp.toNat)).sp.toNat + 1) :
      Effect s (.pop a) (((s.writeReg r (s.mem.read s.sp.toNat)).writeReg Config.spIndex sp).setPc (s.pc + 2))
  | call (a : Byte) (r : RegIdx) (addr ret : Byte) (ha : a.toNat = r.val) (hsp : s.sp.toNat = addr.toNat + 1)
      (hret : ret.toNat = s.pc.toNat + 2) :
      Effect s (.call a) { s.writeReg Config.spIndex addr with
        mem := s.mem.write addr.toNat ret, pc := zext9 ((s.writeReg Config.spIndex addr).readReg r) }
  | ret (sp : Byte) (hsp : sp.toNat = s.sp.toNat + 1) :
      Effect s .ret ((s.setPc (zext9 (s.mem.read s.sp.toNat))).writeReg Config.spIndex sp)
  | cmp (a b : Byte) (r q : RegIdx) (ha : a.toNat = r.val) (hb : b.toNat = q.val) :
      Effect s (.cmp a b) ((s.compareFlags (s.readReg r) (s.readReg q)).setPc (s.pc + 3))
  | jmp (a : Byte) (r : RegIdx) (ha : a.toNat = r.val) : Effect s (.jmp a) (s.setPc (zext9 (s.readReg r)))
  | jeq (a : Byte) (r : RegIdx) (ha : a.toNat = r.val) : Effect s (.jeq a) (branch s.flagE (s.readReg r) s)
  | jne (a : Byte) (r : RegIdx) (ha : a.toNat = r.val) : Effect s (.jne a) (branch (!s.flagE) (s.readReg r) s)

/-- The faults an instruction can raise, and what each requires (`60_exceptions.md` R254, R262). -/
inductive Raised (s : State) : Instr → FaultCause → Prop
  | register (i : Instr) (f : Byte) (hf : f ∈ i.regFields) (h : 8 ≤ f.toNat) :
      Raised s i (.outOfBounds .register f.toNat)
  | pushAtZero (a : Byte) (h : s.sp = 0) : Raised s (.push a) (.outOfBounds .value (-1))
  | callAtZero (a : Byte) (h : s.sp = 0) : Raised s (.call a) (.outOfBounds .value (-1))
  | callReturn (a : Byte) (h : 253 < s.pc.toNat) : Raised s (.call a) (.outOfBounds .value (s.pc.toNat + 2))
  | pop (a : Byte) (r : RegIdx) (ha : a.toNat = r.val) (h : (s.writeReg r (s.mem.read s.sp.toNat)).sp.toNat = 255) :
      Raised s (.pop a) (.outOfBounds .value 256)
  | ret (h : s.sp.toNat = 255) : Raised s .ret (.outOfBounds .value 256)
  | output (a : Byte) (h : s.nextOutOk = false) : Raised s (.prn a) .outputError

variable {s t : State}

/-- An instruction's step has its effect, or takes a fault it can raise in the state before it. -/
theorem exec_cases {i : Instr} (h : exec i s = .next t) :
    Effect s i t ∨ ∃ c, Raised s i c ∧ t = s.takeFault (some i.opcode) c := by
  cases i with
  | hlt =>
    simp only [exec, execHlt, perform_ok, advance_hlt, Host.Outcome.next.injEq] at h
    exact .inl (h ▸ .hlt)
  | ldi a imm =>
    simp only [exec, execLdi, perform_eq_next, bind_eq_ok, bind_eq_error, regIndex_eq_ok, regIndex_eq_error, pure_eq_ok,
      Except.ok.injEq, reduceCtorEq, and_false, exists_false, or_false, advance_ldi] at h
    rcases h with ⟨u, ⟨r, hr, rfl⟩, rfl⟩ | ⟨c, ⟨hf, rfl⟩, rfl⟩
    · exact .inl (.ldi a imm r hr)
    · exact .inr ⟨_, .register _ a (by simp [Instr.regFields]) hf, rfl⟩
  | prn a =>
    simp only [exec, execPrn, perform_eq_next, bind_eq_ok, bind_eq_error, regIndex_eq_ok, regIndex_eq_error, emit_eq_ok,
      emit_eq_error, advance_prn] at h
    rcases h with ⟨u, ⟨r, hr, ho, rfl⟩, rfl⟩ | ⟨c, ⟨hf, rfl⟩ | ⟨_, _, ho, rfl⟩, rfl⟩
    · exact .inl (.prn a r hr ho)
    · exact .inr ⟨_, .register _ a (by simp [Instr.regFields]) hf, rfl⟩
    · exact .inr ⟨_, .output a ho, rfl⟩
  | mul a b =>
    simp only [exec, execMul, perform_eq_next, bind_eq_ok, bind_eq_error, regIndexPair_eq_ok, regIndexPair_eq_error, alu,
      Except.ok.injEq, reduceCtorEq, and_false, exists_false, or_false, advance_mul] at h
    rcases h with ⟨u, ⟨⟨r, q⟩, ⟨hr, hq⟩, rfl⟩, rfl⟩ | ⟨c, ⟨hf, rfl⟩ | ⟨_, hf, rfl⟩, rfl⟩
    · exact .inl (.mul a b r q hr hq)
    · exact .inr ⟨_, .register _ a (by simp [Instr.regFields]) hf, rfl⟩
    · exact .inr ⟨_, .register _ b (by simp [Instr.regFields]) hf, rfl⟩
  | push a =>
    simp only [exec, execPush, perform_eq_next, bind_eq_ok, bind_eq_error, regIndex_eq_ok, regIndex_eq_error,
      pushSlot_eq_ok, pushSlot_eq_error, memWrite_byte, Except.ok.injEq, reduceCtorEq, and_false, exists_false, or_false,
      advance_push] at h
    rcases h with ⟨u, ⟨r, hr, ⟨addr, u'⟩, ⟨hsp, hu⟩, rfl⟩, rfl⟩ | ⟨c, ⟨hf, rfl⟩ | ⟨_, _, hz, rfl⟩, rfl⟩
    · simp only at hsp hu
      subst hu
      exact .inl (.push a r addr hr hsp)
    · exact .inr ⟨_, .register _ a (by simp [Instr.regFields]) hf, rfl⟩
    · exact .inr ⟨_, .pushAtZero a hz, rfl⟩
  | pop a =>
    simp only [exec, execPop, perform_eq_next, bind_eq_ok, bind_eq_error, regIndex_eq_ok, regIndex_eq_error, popRead_eq,
      popBump_eq_ok, popBump_eq_error, Except.ok.injEq, reduceCtorEq, false_or, advance_pop] at h
    rcases h with ⟨u, ⟨r, hr, v, rfl, sp, hsp, rfl⟩, rfl⟩ | ⟨c, ⟨hf, rfl⟩ | ⟨r, hr, v, rfl, hv, rfl⟩, rfl⟩
    · exact .inl (.pop a r sp hr hsp)
    · exact .inr ⟨_, .register _ a (by simp [Instr.regFields]) hf, rfl⟩
    · exact .inr ⟨_, .pop a r hr hv, rfl⟩
  | call a =>
    simp only [exec, execCall, perform_eq_next, bind_eq_ok, bind_eq_error, regIndex_eq_ok, regIndex_eq_error,
      pushSlot_eq_ok, pushSlot_eq_error, memWrite_byte, checked8_eq_ok, checked8_eq_error, pure_eq_ok, Except.ok.injEq,
      reduceCtorEq, and_false, exists_false, or_false, advance_call] at h
    rcases h with ⟨u, ⟨r, hr, ret, hret, ⟨addr, u'⟩, ⟨hsp, hu⟩, _, rfl, rfl⟩, rfl⟩ |
      ⟨c, ⟨hf, rfl⟩ | ⟨_, _, ⟨hp, rfl⟩ | ⟨_, _, hz, rfl⟩⟩, rfl⟩
    · simp only at hsp hu
      subst hu
      exact .inl (.call a r addr ret hr hsp (by omega))
    · exact .inr ⟨_, .register _ a (by simp [Instr.regFields]) hf, rfl⟩
    · exact .inr ⟨_, .callReturn a (by omega), rfl⟩
    · exact .inr ⟨_, .callAtZero a hz, rfl⟩
  | ret =>
    simp only [exec, execRet, perform_eq_next, bind_eq_ok, bind_eq_error, popRead_eq, popBump_eq_ok, popBump_eq_error,
      Except.ok.injEq, reduceCtorEq, false_or, advance_ret] at h
    rcases h with ⟨u, ⟨v, rfl, sp, hsp, rfl⟩, rfl⟩ | ⟨c, ⟨v, rfl, hv, rfl⟩, rfl⟩
    · exact .inl (.ret sp hsp)
    · exact .inr ⟨_, .ret hv, rfl⟩
  | cmp a b =>
    simp only [exec, execCmp, perform_eq_next, bind_eq_ok, bind_eq_error, regIndexPair_eq_ok, regIndexPair_eq_error,
      pure_eq_ok, Except.ok.injEq, reduceCtorEq, and_false, exists_false, or_false, advance_cmp] at h
    rcases h with ⟨u, ⟨⟨r, q⟩, ⟨hr, hq⟩, rfl⟩, rfl⟩ | ⟨c, ⟨hf, rfl⟩ | ⟨_, hf, rfl⟩, rfl⟩
    · have hpc : (s.compareFlags (s.readReg r) (s.readReg q)).pc = s.pc := by simp [State.compareFlags_eq]
      exact .inl (hpc ▸ .cmp a b r q hr hq)
    · exact .inr ⟨_, .register _ a (by simp [Instr.regFields]) hf, rfl⟩
    · exact .inr ⟨_, .register _ b (by simp [Instr.regFields]) hf, rfl⟩
  | jmp a =>
    simp only [exec, execJmp, perform_eq_next, bind_eq_ok, bind_eq_error, regIndex_eq_ok, regIndex_eq_error, pure_eq_ok,
      Except.ok.injEq, reduceCtorEq, and_false, exists_false, or_false, advance_jmp] at h
    rcases h with ⟨u, ⟨r, hr, rfl⟩, rfl⟩ | ⟨c, ⟨hf, rfl⟩, rfl⟩
    · exact .inl (.jmp a r hr)
    · exact .inr ⟨_, .register _ a (by simp [Instr.regFields]) hf, rfl⟩
  | jeq a =>
    simp only [exec, execJeq, perform_eq_next, bind_eq_ok, bind_eq_error, regIndex_eq_ok, regIndex_eq_error, pure_eq_ok,
      Except.ok.injEq, reduceCtorEq, and_false, exists_false, or_false, advance_jeq] at h
    rcases h with ⟨u, ⟨r, hr, rfl⟩, rfl⟩ | ⟨c, ⟨hf, rfl⟩, rfl⟩
    · exact .inl (.jeq a r hr)
    · exact .inr ⟨_, .register _ a (by simp [Instr.regFields]) hf, rfl⟩
  | jne a =>
    simp only [exec, execJne, perform_eq_next, bind_eq_ok, bind_eq_error, regIndex_eq_ok, regIndex_eq_error, pure_eq_ok,
      Except.ok.injEq, reduceCtorEq, and_false, exists_false, or_false, advance_jne] at h
    rcases h with ⟨u, ⟨r, hr, rfl⟩, rfl⟩ | ⟨c, ⟨hf, rfl⟩, rfl⟩
    · exact .inl (.jne a r hr)
    · exact .inr ⟨_, .register _ a (by simp [Instr.regFields]) hf, rfl⟩

/-- Every instruction ends its step in a next state. -/
theorem exec_next (i : Instr) (s : State) : ∃ t, exec i s = .next t := by
  obtain ⟨r, hr⟩ := exec_eq_perform i s
  exact hr ▸ perform_next i r

end Sys2Proof.Machine
end

