-- ==== Sys2Proof/Laws/Fetch.lean ====
section
/-! SUPPORT. What a fetch has read when it succeeds, and the faults it can raise. -/

namespace Sys2Proof.Machine

variable {s : State}

/-- No two instructions share a byte of the default map (`30_encoding.md` R80). -/
theorem opcodeMap_injective (m n : Mnemonic) (h : opcodeMap m = opcodeMap n) : m = n := by
  cases m <;> cases n <;> first | rfl | (revert h; decide)

/-- A fetched instruction lies in memory with all its bytes. -/
theorem fetch_eq_ok {i : Instr} (h : fetch s = .ok i) :
    s.pc.toNat + i.operands.length < 256 ∧ s.mem.read s.pc.toNat = i.opcode ∧
      ∀ k (hk : k < i.operands.length), s.mem.read (s.pc.toNat + (k + 1)) = i.operands[k] := by
  obtain ⟨h0, h1⟩ := decodeFrom_eq_ok h
  simp only [memRead_eq_ok] at h0 h1
  refine ⟨?_, h0.2.symm, fun k hk => (h1 k hk).2.symm⟩
  rcases Nat.eq_zero_or_pos i.operands.length with e | e
  · omega
  · have := (h1 (i.operands.length - 1) (by omega)).1
    omega

/-- A fetch raises only for a byte without a handler, or an address past 255 among the instruction's three. -/
theorem fetch_eq_error {c : FaultCause} (h : fetch s = .error c) :
    (s.pc.toNat < 256 ∧ c = .unknownOpcode (s.mem.read s.pc.toNat) s.pc) ∨
      ∃ a : Nat, 255 < a ∧ s.pc.toNat ≤ a ∧ a ≤ s.pc.toNat + 2 ∧ c = .outOfBounds .memory a := by
  unfold fetch decodeFrom at h
  simp only [bind_eq_error, memRead_eq_error, memRead_eq_ok] at h
  rcases h with ⟨h, rfl⟩ | ⟨_, ⟨h0, rfl⟩, h⟩
  · exact .inr ⟨_, h, by omega, by omega, rfl⟩
  · revert h
    split <;> simp only [bind_eq_error, memRead_eq_error, pure_eq_ok, reduceCtorEq, and_false, exists_false, or_false,
      false_implies, Except.error.injEq] <;> intro h
    · exact .inl ⟨h0, h.symm⟩
    all_goals first
      | (rcases h with ⟨h, rfl⟩ | ⟨_, _, h, rfl⟩ <;> exact .inr ⟨_, h, by omega, by omega, rfl⟩)
      | (obtain ⟨h, rfl⟩ := h; exact .inr ⟨_, h, by omega, by omega, rfl⟩)

end Sys2Proof.Machine
end

