-- ==== Sys2Proof/Laws/Loader.lean ====
section
/-! SUPPORT. Reading after storing consecutive bytes, and what a load leaves as it is. -/

namespace Sys2Proof.Machine

/-- Storing bytes leaves every address below the first one as it was. -/
theorem Memory.read_storeBytes_below {m : Memory} (h : m.wf) (bytes : List Byte) {a x : Nat} (hx : x < a) :
    (m.storeBytes a bytes).read x = m.read x := by
  induction bytes generalizing m a with
  | nil => rfl
  | cons v vs ih =>
    unfold Memory.storeBytes
    split
    · rw [ih (Memory.write_wf h ‹_› v) (by omega), Memory.read_write_other h v (by omega)]
    · exact ih h (by omega)

/-- A load leaves every field but memory as reset has it. -/
theorem loadImage_eq_ok {image : List Byte} {s : State} (h : loadImage image = .ok s) :
    image.length ≤ 256 ∧ s = { State.reset with mem := s.mem } ∧ s.mem.wf := by
  unfold loadImage at h
  split at h
  · obtain rfl := Except.ok.inj h
    exact ⟨‹_›, rfl, Memory.storeBytes_wf Memory.reset_wf 0 image⟩
  · cases h

end Sys2Proof.Machine
end

