-- ==== Sys2Proof/Laws/PerInstr.lean ====
section
/-! SUPPORT. The per-instruction family `EncodedLength`: an instruction is encoded in as many bytes as the length decode of
its opcode says (`30_encoding.md` R72, R75). -/

namespace Sys2Proof.Laws.EncodedLength

def Statement (i : Instr) : Prop := (encode i).length = i.length

theorem of_format (i : Instr) : Statement i := by
  simp [Statement, encode, encodeWith, Instr.length, Instr.opcode, opLength_opcodeMap, Instr.operands_length]

theorem hlt : Statement .hlt := of_format _

theorem ldi (a imm : Byte) : Statement (.ldi a imm) := of_format _

theorem prn (a : Byte) : Statement (.prn a) := of_format _

theorem mul (a b : Byte) : Statement (.mul a b) := of_format _

theorem push (a : Byte) : Statement (.push a) := of_format _

theorem pop (a : Byte) : Statement (.pop a) := of_format _

theorem call (a : Byte) : Statement (.call a) := of_format _

theorem ret : Statement .ret := of_format _

theorem cmp (a b : Byte) : Statement (.cmp a b) := of_format _

theorem jmp (a : Byte) : Statement (.jmp a) := of_format _

theorem jeq (a : Byte) : Statement (.jeq a) := of_format _

theorem jne (a : Byte) : Statement (.jne a) := of_format _

end Sys2Proof.Laws.EncodedLength
end

