-- ==== Sys2Proof/Tests/Slice0.lean ====
section
/-! SUPPORT. Tests. Every expected value is a vector of `95_test_vectors.md` (named in the comment) or worked out by hand from
the rule named; the opcode bytes are written out from `30_encoding.md` R76. Then a witness for each statement that has
hypotheses. -/

namespace Sys2Proof.Machine.Tests

/-! ### Helpers -/

/-- The reset state with code at an address and the pc there. -/
def code (pc : Nat) (bytes : List Byte) : State :=
  { State.reset with mem := Memory.storeBytes [] pc bytes, pc := BitVec.ofNat 9 pc }

/-- What `f` sees of the next state. -/
def after {α : Type} (o : Host.Outcome State Fault Refusal) (f : State → α) : Option α :=
  match o with
  | .next t => some (f t)
  | .fault _ => none
  | .refused _ => none

/-- The fault cause of a state. -/
def cause (s : State) : Option FaultCause := s.faultInfo.map FaultRecord.cause

/-! ### Well-formedness: each register field of each instruction is checked -/

theorem test_wellFormed : (Instr.ldi 7 255).WellFormed ∧ (Instr.mul 0 7).WellFormed ∧ Instr.hlt.WellFormed := by decide
theorem test_illFormed_ldi : ¬(Instr.ldi 8 0).WellFormed := by decide
theorem test_illFormed_prn : ¬(Instr.prn 8).WellFormed := by decide
theorem test_illFormed_mul : ¬(Instr.mul 8 0).WellFormed ∧ ¬(Instr.mul 0 8).WellFormed := by decide
theorem test_illFormed_push : ¬(Instr.push 255).WellFormed := by decide
theorem test_illFormed_pop : ¬(Instr.pop 8).WellFormed := by decide
theorem test_illFormed_call : ¬(Instr.call 8).WellFormed := by decide
theorem test_illFormed_cmp : ¬(Instr.cmp 128 0).WellFormed ∧ ¬(Instr.cmp 0 8).WellFormed := by decide
theorem test_illFormed_jumps : ¬(Instr.jmp 8).WellFormed ∧ ¬(Instr.jeq 9).WellFormed ∧ ¬(Instr.jne 8).WellFormed := by decide

/-! ### Decoding: every constructor, from its word of R76 -/

theorem test_decode_hlt : decode [0b00000001] = .ok (.hlt, []) := by decide
theorem test_decode_ldi : decode [0b10000010, 0b00000011, 0b11111110] = .ok (.ldi 3 254, []) := by decide
theorem test_decode_prn : decode [0b01000111, 0b00000110] = .ok (.prn 6, []) := by decide
theorem test_decode_mul : decode [0b10100010, 0b00000010, 0b00000101] = .ok (.mul 2 5, []) := by decide
theorem test_decode_push : decode [0b01000101, 0b00000111] = .ok (.push 7, []) := by decide
theorem test_decode_pop : decode [0b01000110, 0b00000001] = .ok (.pop 1, []) := by decide
theorem test_decode_call : decode [0b01010000, 0b00000100] = .ok (.call 4, []) := by decide
theorem test_decode_ret : decode [0b00010001, 0b11111111] = .ok (.ret, [255]) := by decide
theorem test_decode_cmp : decode [0b10100111, 0b00000001, 0b00000000] = .ok (.cmp 1 0, []) := by decide
theorem test_decode_jmp : decode [0b01010100, 0b00000010] = .ok (.jmp 2, []) := by decide
theorem test_decode_jeq : decode [0b01010101, 0b00000011] = .ok (.jeq 3, []) := by decide
theorem test_decode_jne : decode [0b01010110, 0b00000011] = .ok (.jne 3, []) := by decide

/-- V-DEC-7 to V-DEC-12: illegal opcode bytes. -/
theorem test_decode_illegal :
    [0x00, 0xA0, 0xFF, 0xC2, 0x10, 0x02].all (fun op : Byte => decide (decode [op, 0, 0] = .error (.unknownOpcode op))) := by
  decide

theorem test_decode_missing : decode [0x82, 0] = .error (.missingByte 2) ∧ decode [] = .error (.missingByte 0) := by decide

/-- Bits 7:0 of a table word are the first byte; a row of 8 bits has operand bytes of zeros. -/
theorem test_decodeTableWord :
    decodeTableWord 24 0x0503A2 = some (.mul 3 5) ∧ decodeTableWord 8 0xFFFF82 = some (.ldi 0 0) ∧
      decodeTableWord 8 0xA0 = none := by decide

/-- The host's probe of a row: the word is the first instruction after reset. -/
theorem test_withFetchWord :
    fetch (State.reset.withFetchWord 16 0x0547) = .ok (.prn 5) ∧
      fetch (State.reset.withFetchWord 8 0x01) = .ok .hlt := by decide

/-! ### Fetching -/

/-- V-FET-1: a fetch past memory, with no opcode in the record. -/
theorem test_fetch_pcPastMemory :
    after (step { code 0 [] with pc := 256 }) (·.faultInfo) = some (some ⟨256, none, .outOfBounds .memory 256⟩) := by decide

/-- V-FET-2, V-FET-7: LDI at 254 faults on its second operand, before its register field 9 is checked. -/
theorem test_fetch_operandPastMemory :
    after (step (code 254 [0x82, 9])) (fun t => (t.faultInfo, t.pc)) =
      some (some ⟨254, some 0x82, .outOfBounds .memory 256⟩, 254) := by decide

/-- V-DEC-8 as a step: the byte 0xA0 has no handler. -/
theorem test_step_unknownOpcode :
    after (step (code 5 [0xA0])) (fun t => (t.faultInfo, t.running)) =
      some (some ⟨5, some 0xA0, .unknownOpcode 0xA0 5⟩, false) := by decide

/-- R101: a halted machine has no step. -/
theorem test_step_halted : after (step (code 0 [0x01]).halt) (·.pc) = none := by decide

/-! ### LDI, PRN, HLT -/

/-- V-LDI-4 and V-LDI-5: R7 is written like any register, E is kept. -/
theorem test_ldi :
    after (step { code 0 [0x82, 7, 0x10] with flagE := true }) (fun t => (t.sp, t.pc, t.flagE)) =
      some (0x10, 3, true) := by decide

/-- V-LDI-6. -/
theorem test_ldi_badRegister :
    after (step (code 0 [0x82, 8, 1])) (fun t => (cause t, t.pc)) = some (some (.outOfBounds .register 8), 0) := by decide

/-- V-PRN-3 after an earlier byte: the output keeps its order. -/
theorem test_prn :
    after (step { code 9 [0x47, 7] with out := [1], outOk := [true, false] }) (fun t => (t.out, t.outOk, t.pc)) =
      some ([1, 244], [false], 11) := by decide

/-- V-PRN-4: the host fails the emission. -/
theorem test_prn_outputError :
    after (step { code 9 [0x47, 0] with outOk := [false] }) (fun t => (cause t, t.out, t.pc)) =
      some (some .outputError, [], 9) := by decide

/-- U4: from reset, no answer of the host is fixed. -/
theorem test_prn_freeAnswer : State.reset.nextOutOk = Config.freeOutOk 0 := rfl

/-- V-HLT-2: HLT at 255 leaves the pc at 256 and raises no fault. -/
theorem test_hlt :
    after (step (code 255 [0x01])) (fun t => (t.status, t.running, t.pc)) = some (.halted, false, 256) := by decide

/-! ### ALU and MUL -/

/-- V-MUL-7: 2 * 244 = 488, modulo 256 is 232; SP is unchanged. -/
theorem test_mul :
    after (exec (.mul 2 7) (State.reset.writeReg 2 2)) (fun t => (t.readReg 2, t.sp, t.pc)) = some (232, 244, 3) := by decide

/-- V-MUL-6: `a = b` squares. -/
theorem test_mul_square :
    after (exec (.mul 0 0) (State.reset.writeReg 0 200)) (fun t => t.readReg 0) = some 64 := by decide

/-- V-ALU-1: 200 + 100 = 300, modulo 256 is 44. -/
theorem test_alu_add :
    ((alu .add 0 1 ((State.reset.writeReg 0 200).writeReg 1 100)).toOption.map (·.readReg 0)) = some 44 := by decide

/-- V-ALU-3. -/
theorem test_alu_other : alu (.other "SUB") 0 1 State.reset = .error (.unsupportedAluOperation "SUB") := rfl

/-! ### Stack -/

/-- V-STK-2: PUSH R7 pushes the decremented SP. -/
theorem test_push_sp :
    after (exec (.push 7) State.reset) (fun t => (t.sp, t.mem, t.pc)) = some (243, [(243, 243)], 2) := by decide

/-- V-STK-4: a push with SP = 0 faults with the value -1 and changes nothing. -/
theorem test_push_atZero :
    after (exec (.push 0) (State.reset.writeReg 7 0)) (fun t => (cause t, t.sp, t.mem)) =
      some (some (.outOfBounds .value (-1)), 0, []) := by decide

/-- V-STK-6: POP R7 leaves the popped byte plus 1. -/
theorem test_pop_sp :
    after (exec (.pop 7) { State.reset.writeReg 7 243 with mem := [(243, 0x10)] }) (fun t => (t.sp, t.mem)) =
      some (0x11, [(243, 0x10)]) := by decide

/-- V-STK-7: the increment to 256 faults and `R0` keeps its value. -/
theorem test_pop_at255 :
    after (exec (.pop 0) { State.reset.writeReg 7 255 with mem := [(255, 9)] }) (fun t => (cause t, t.readReg 0, t.sp)) =
      some (some (.outOfBounds .value 256), 0, 255) := by decide

/-! ### CALL and RET -/

/-- V-SUB-2: CALL R7 jumps to the decremented SP. -/
theorem test_call_sp :
    after (exec (.call 7) State.reset) (fun t => (t.mem, t.sp, t.pc)) = some ([(243, 2)], 243, 243) := by decide

/-- V-SUB-3, with SP = 0 as well: the return address is checked before SP. -/
theorem test_call_at254 :
    after (step { code 254 [0x50, 1] with regs := Vector.replicate 8 0 }) cause =
      some (some (.outOfBounds .value 256)) := by decide

/-- V-SUB-5. -/
theorem test_ret :
    after (exec .ret { State.reset.writeReg 7 243 with mem := [(243, 0x22)] }) (fun t => (t.pc, t.sp)) =
      some (0x22, 244) := by decide

/-- V-SUB-6. -/
theorem test_ret_at255 :
    after (exec .ret (State.reset.writeReg 7 255)) (fun t => (cause t, t.pc)) =
      some (some (.outOfBounds .value 256), 0) := by decide

/-! ### CMP and jumps -/

/-- V-CMP-2 and V-CMP-5: 3 is below 200 unsigned, and an old E is cleared. -/
theorem test_cmp :
    after (exec (.cmp 0 1) { (State.reset.writeReg 0 3).writeReg 1 200 with flagE := true })
      (fun t => (t.flagE, t.flagL, t.flagG, t.pc)) = some (false, true, false, 3) := by decide

/-- V-CMP-7: field `b` is checked, and the flags are unchanged. -/
theorem test_cmp_badRegister :
    after (exec (.cmp 0 8) { State.reset with flagG := true }) (fun t => (cause t, t.flagE, t.flagG)) =
      some (some (.outOfBounds .register 8), false, true) := by decide

/-- V-JMP-1. -/
theorem test_jmp : after (step ((code 20 [0x54, 2]).writeReg 2 0x30)) (·.pc) = some 0x30 := by decide

/-- V-JMP-2 and V-JMP-9: JEQ taken, and not taken at 254. -/
theorem test_jeq :
    after (step { (code 20 [0x55, 3]).writeReg 3 0x30 with flagE := true }) (·.pc) = some 0x30 ∧
      after (step { code 254 [0x55, 3] with flagL := true }) (·.pc) = some 256 := by decide

/-- V-JMP-8: the register field is checked though the jump is not taken. -/
theorem test_jeq_badRegister :
    after (step (code 20 [0x55, 9])) (fun t => (cause t, t.pc)) = some (some (.outOfBounds .register 9), 20) := by decide

/-- V-JMP-4 and V-JMP-5. -/
theorem test_jne :
    after (step ((code 20 [0x56, 3]).writeReg 3 12)) (·.pc) = some 12 ∧
      after (step { code 20 [0x56, 3] with flagE := true }) (·.pc) = some 22 := by decide

/-! ### Memory, load and observation -/

/-- The canonical form: writing 0 removes the entry, an earlier address goes before a later one. -/
theorem test_memory_write :
    (Memory.write [(5, 1)] 5 0, Memory.write [(5, 1)] 3 2, Memory.write [(5, 1)] 9 0) = ([], [(3, 2), (5, 1)], [(5, 1)]) := by
  decide

/-- R92: a comment is stripped, blank and malformed lines consume no address (the first three lines of P1's text). -/
theorem test_parseImage :
    parseImage ["10000010 # LDI R0,8".toList, "".toList, "00000000".toList, "# note".toList, "101".toList,
      "00001000".toList] = [0x82, 0, 8] := by decide

theorem test_loadFile_missing : (loadFile none).toOption = none := by decide

/-- R35: E is bit 0, G bit 1, L bit 2. -/
theorem test_flagsByte : ({ State.reset with flagE := true, flagL := true } : State).flagsByte = 0b00000101 := by decide

/-- R252: the status code of an unknown opcode is 2 (program P6's end). -/
theorem test_statusCode : after (step (code 3 [])) (·.statusCode) = some (some 2) := by decide

/-! ### Witnesses: states and operands that meet all the hypotheses of a statement -/

theorem witness_LoadedMemoryHoldsImage : ([0x82, 0, 8] : List Byte).length ≤ 256 := by decide

theorem witness_ResetAndLoadedFields : ∃ image s, image ≠ [] ∧ loadImage image = .ok s := ⟨[0x01], _, by decide, rfl⟩

theorem witness_OverlongImageIsRefused :
    (List.replicate 256 (0 : Byte)).length ≤ 256 ∧ 256 < (List.replicate 257 (0 : Byte)).length := by
  rw [List.length_replicate, List.length_replicate]; decide

/-- A lawful map exists, for the statements about every lawful map. -/
theorem witness_lawfulMap : OpcodeMap.Lawful opcodeMap :=
  ⟨opcodeMap_injective, opLength_opcodeMap, fun m => by cases m <;> decide⟩

theorem witness_EncodeOfDecode : decodeWith opcodeMap [0xA2, 9, 255, 1] = .ok (.mul 9 255, [1]) := by decide

theorem witness_LengthIsDecodedFromOpcode : decode [0x82, 0, 8, 1] = .ok (.ldi 0 8, [1]) := by decide

theorem witness_StepRunsDecodedInstruction :
    (code 253 [0x82, 0, 8]).status = .running ∧ decode (codeBytes (code 253 [0x82, 0, 8])) = .ok (.ldi 0 8, []) := by decide

theorem witness_ControllerTransitions :
    (code 255 [0x01]).status = .running ∧ (∃ t, step (code 255 [0x01]) = .next t) ∧
      (code 255 [0x01]).halt.status ≠ .running := ⟨by decide, ⟨_, rfl⟩, by decide⟩

theorem witness_OpcodeFetch :
    ({ State.reset with pc := 256 } : State).status = .running ∧ 255 < ({ State.reset with pc := 256 } : State).pc.toNat ∧
      fetch (code 255 [0x01]) = .ok .hlt := by decide

theorem witness_UnknownOpcodeFaults :
    (code 255 [0xC2]).status = .running ∧ (code 255 [0xC2]).pc.toNat ≤ 255 ∧
      (Mnemonic.all.all fun m => opcodeMap m != (code 255 [0xC2]).mem.read 255) ∧ (0xFF : Byte) >>> 6 = 0b11 := by decide

theorem witness_OperandPastMemoryFaults :
    (code 255 [0x50]).status = .running ∧ (code 255 [0x50]).pc.toNat ≤ 255 ∧
      (code 255 [0x50]).mem.read 255 = opcodeMap .call ∧ 255 < (code 255 [0x50]).pc.toNat + Mnemonic.call.format.operandBytes ∧
      (code 254 [0xA7]).mem.read 254 = opcodeMap .cmp ∧ 255 < (code 254 [0xA7]).pc.toNat + Mnemonic.cmp.format.operandBytes := by
  decide

theorem witness_FetchDependsOnlyOnBytesAtPc :
    ∃ s t : State, s ≠ t ∧ s.pc = t.pc ∧
      ∀ k, k < 3 → s.mem.read (s.pc.toNat + k) = t.mem.read (t.pc.toNat + k) :=
  ⟨code 0 [0x01], { code 0 [0x01] with flagE := true }, by decide, rfl, fun _ _ => rfl⟩

theorem witness_MemoryAccessIsBoundsChecked : (255 : Nat) ≤ 255 ∧ (255 : Nat) < 256 := by decide

/-- A faulting step, for the statements about the fault a step takes. -/
theorem witness_faultingStep :
    ∃ t info, step State.reset = .next t ∧ t.status = .fault info := ⟨_, _, rfl, rfl⟩

theorem witness_RegisterIndexAboveSevenFaults :
    (Instr.mul 0 8).regFields.find? (fun x => decide (7 < x.toNat)) = some 8 ∧
      (Instr.jne 255).regFields.find? (fun x => decide (7 < x.toNat)) = some 255 ∧
      (Instr.cmp 9 10).regFields.find? (fun x => decide (7 < x.toNat)) = some 9 := by decide

/-- A state and operands for each clause of `StackRangeFaults`. -/
theorem witness_StackRangeFaults :
    (7 : Byte).toNat < 8 ∧ (0 : Byte) ≠ 7 ∧ (State.reset.writeReg 7 0).sp = 0 ∧ (State.reset.writeReg 7 255).sp = 255 ∧
      (code 244 [255]).mem.read (code 244 [255]).sp.toNat = 255 ∧ 253 < (code 254 []).pc.toNat ∧
      ((code 253 []).writeReg 7 0).pc.toNat ≤ 253 ∧ ((code 253 []).writeReg 7 0).sp = 0 := by decide

theorem witness_AluWritesNoFlag : ∃ t, alu .mul 7 7 State.reset = .ok t := ⟨_, rfl⟩

/-- Valid register operands at both ends of their range, for the statements of LDI, MUL, CMP and the jumps. -/
theorem witness_registerOperands : (0 : Byte).toNat < 8 ∧ (7 : Byte).toNat < 8 := by decide

theorem witness_PrnEmitsRegister :
    (7 : Byte).toNat < 8 ∧ ({ State.reset with outOk := [true] } : State).nextOutOk = true ∧
      ({ State.reset with outOk := [false] } : State).nextOutOk = false := by decide

theorem witness_PushDecrementsThenWrites :
    (7 : Byte).toNat < 8 ∧ State.reset.sp ≠ 0 ∧ (State.reset.writeReg 7 1).sp ≠ 0 := by decide

theorem witness_PopReadsThenIncrements :
    (6 : Byte).toNat < 8 ∧ (6 : Byte) ≠ 7 ∧ (State.reset.writeReg 7 254).sp ≠ 255 ∧
      (code 244 [254]).mem.read (code 244 [254]).sp.toNat ≠ 255 := by decide

theorem witness_CallPushesReturnAddress :
    (7 : Byte).toNat < 8 ∧ (code 253 []).pc.toNat ≤ 253 ∧ (code 253 []).sp ≠ 0 := by decide

theorem witness_RetPopsPc : State.reset.sp ≠ 255 := by decide

/-- Each instruction of the frames completes from the reset state. -/
theorem witness_frames :
    (∃ t, exec (.ldi 7 1) State.reset = .next t) ∧ (∃ t, exec (.mul 7 0) State.reset = .next t) ∧
      (∃ t, exec (.cmp 7 0) State.reset = .next t) ∧ (∃ t, exec (.jmp 7) State.reset = .next t) ∧
      (∃ t, exec (.jeq 7) State.reset = .next t) ∧ (∃ t, exec (.jne 7) State.reset = .next t) ∧
      (∃ t, exec (.prn 7) State.reset = .next t) ∧ (∃ t, exec .hlt State.reset = .next t) ∧
      (∃ t, exec (.push 7) State.reset = .next t) ∧ (∃ t, exec (.call 7) State.reset = .next t) ∧
      (∃ t, exec (.pop 7) State.reset = .next t) ∧ (∃ t, exec .ret State.reset = .next t) ∧ State.reset.mem.wf :=
  ⟨⟨_, rfl⟩, ⟨_, rfl⟩, ⟨_, rfl⟩, ⟨_, rfl⟩, ⟨_, rfl⟩, ⟨_, rfl⟩, ⟨_, rfl⟩, ⟨_, rfl⟩, ⟨_, rfl⟩, ⟨_, rfl⟩, ⟨_, rfl⟩, ⟨_, rfl⟩,
    by decide⟩

theorem witness_FlagsWrittenByCmpReadByJeqJne :
    (∀ a b, Instr.ret ≠ .cmp a b) ∧ (∀ a, Instr.ret ≠ .jeq a) ∧ (∀ a, Instr.ret ≠ .jne a) ∧
      (∃ t, exec .ret State.reset = .next t) ∧ (0 : Byte).toNat < 8 ∧ (7 : Byte).toNat < 8 := by
  refine ⟨?_, ?_, ?_, ⟨_, rfl⟩, by decide, by decide⟩ <;> intros <;> exact Instr.noConfusion

/-- A step of PUSH changes the byte below SP. -/
theorem witness_MemoryWrittenOnlyByPushCall :
    (code 0 [0x45, 7]).mem.wf ∧ after (step (code 0 [0x45, 7])) (fun t => t.mem.read 243) = some 243 ∧
      (code 0 [0x45, 7]).mem.read 243 = 0 := by decide

theorem witness_PcAfterCompletedStep :
    fetch (code 254 [0x55, 7]) = .ok (.jeq 7) ∧
      after (step (code 254 [0x55, 7])) (fun t => (t.status, t.pc)) = some (.running, 256) := by decide

theorem reset_inv : State.reset.Inv :=
  ⟨by decide, by decide, by decide, by decide, fun _ h => Status.noConfusion h⟩

theorem witness_HostAnswersReachPrnOnly : (∀ a, Instr.pop 7 ≠ .prn a) ∧ [false] ≠ State.reset.outOk :=
  ⟨fun _ => Instr.noConfusion, by decide⟩

theorem witness_StepKeepsMachineInvariant : State.reset.Inv ∧ ∃ t, step State.reset = .next t := ⟨reset_inv, _, rfl⟩

theorem witness_LoadedStateMeetsMachineInvariant : ∃ s, loadImage [0x82, 0, 8] = .ok s := ⟨_, rfl⟩

theorem witness_CanonicalMemoryIsUnique :
    Memory.wf [(0, 1), (255, 2)] ∧ ∀ a, Memory.read [(0, 1), (255, 2)] a = Memory.read [(0, 1), (255, 2)] a :=
  ⟨by decide, fun _ => rfl⟩

theorem witness_PushPopRoundTrip :
    ∃ t u, (0 : RegIdx) ≠ 7 ∧ (1 : RegIdx) ≠ 7 ∧ State.reset.sp ≠ 0 ∧ State.reset.mem.wf ∧
      exec (.push (BitVec.ofNat 8 (0 : RegIdx))) State.reset = .next t ∧
      exec (.pop (BitVec.ofNat 8 (1 : RegIdx))) t = .next u :=
  ⟨_, _, by decide, by decide, by decide, by decide, rfl, rfl⟩

theorem witness_CallRetRoundTrip :
    ∃ t v, State.reset.pc.toNat ≤ 253 ∧ State.reset.sp ≠ 0 ∧ State.reset.mem.wf ∧
      exec (.call (BitVec.ofNat 8 (0 : RegIdx))) State.reset = .next t ∧ exec .ret t = .next v :=
  ⟨_, _, by decide, by decide, by decide, rfl, rfl⟩

theorem witness_JumpToItselfNeverEnds :
    ((code 254 [0x54, 0]).writeReg 0 254).status = .running ∧
      decode (codeBytes ((code 254 [0x54, 0]).writeReg 0 254)) = .ok (.jmp (BitVec.ofNat 8 (0 : RegIdx)), []) ∧
      (((code 254 [0x54, 0]).writeReg 0 254).readReg 0).toNat = ((code 254 [0x54, 0]).writeReg 0 254).pc.toNat := by decide

end Sys2Proof.Machine.Tests
end

section
/-! PROOFS. What memory holds after the load (`10_state.md` R39): image byte `k` at address `k`, and 0 past the image. -/

namespace Sys2Proof.Machine

/-- Storing bytes that fit in memory puts byte `k` at the `k`-th address: no later byte overwrites it. -/
theorem Memory.read_storeBytes_at {m : Memory} (h : m.wf) {bytes : List Byte} {a : Nat} (ha : a + bytes.length ≤ 256)
    {k : Nat} (hk : k < bytes.length) : (m.storeBytes a bytes).read (a + k) = bytes[k] := by
  induction bytes generalizing m a k with
  | nil => exact absurd hk (Nat.not_lt_zero k)
  | cons v vs ih =>
    rw [List.length_cons] at ha hk
    have hlt : a < Config.memSize := Nat.lt_of_lt_of_le (by omega) ha
    have hwf : (m.write a v).wf := Memory.write_wf h hlt v
    simp only [Memory.storeBytes, hlt, if_true]
    cases k with
    | zero => exact (Memory.read_storeBytes_below hwf vs (Nat.lt_succ_self a)).trans (Memory.read_write_same h a v)
    | succ k =>
      have hread := ih hwf (a := a + 1) (k := k) (by omega) (by omega)
      rwa [Nat.add_assoc, Nat.add_comm 1 k] at hread

/-- Storing bytes leaves every address past the last one as it was. -/
theorem Memory.read_storeBytes_above {m : Memory} (h : m.wf) {bytes : List Byte} {a x : Nat} (hx : a + bytes.length ≤ x) :
    (m.storeBytes a bytes).read x = m.read x := by
  induction bytes generalizing m a with
  | nil => rfl
  | cons v vs ih =>
    rw [List.length_cons] at hx
    unfold Memory.storeBytes
    split
    · rw [ih (Memory.write_wf h ‹_› v) (by omega), Memory.read_write_other h v (by omega)]
    · exact ih h (by omega)

@[simp] theorem Memory.read_reset (a : Nat) : State.reset.mem.read a = 0 := rfl

/-- An image that fits is loaded by storing its bytes from address 0 on. -/
theorem loadImage_of_length_le {image : List Byte} (h : image.length ≤ 256) :
    loadImage image = .ok { State.reset with mem := State.reset.mem.storeBytes 0 image } := if_pos h

/-- Memory after storing an image from address 0 into the reset memory. -/
theorem Memory.read_storeBytes_reset {image : List Byte} (h : image.length ≤ 256) (a : Nat) :
    (State.reset.mem.storeBytes 0 image).read a = if h : a < image.length then image[a] else 0 := by
  split
  · rename_i ha
    simpa using Memory.read_storeBytes_at Memory.reset_wf (a := 0) (by omega) ha
  · rw [Memory.read_storeBytes_above Memory.reset_wf (by omega), Memory.read_reset]

/-- Exactly the addresses below 256 can be read (`20_memory.md` R52). -/
theorem exists_memRead_eq_ok {s : State} {a : Nat} : (∃ b, memRead a s = .ok b) ↔ a < 256 := by
  simp [memRead_eq_ok]

/-- Settles O1: a byte of the image stays where the load put it, and every other address keeps the reset value 0. -/
theorem loadedMemoryHoldsImage : Obligations.LoadedMemoryHoldsImage :=
  ⟨Memory.read_reset, fun _ h =>
    ⟨_, loadImage_of_length_le h, Memory.read_storeBytes_reset h, fun _ => exists_memRead_eq_ok⟩⟩

end Sys2Proof.Machine
end

section
/-! PROOFS. The flags (`10_state.md` R33). Setting the flags commutes with every operation of the machine but the comparison,
and with every instruction that does not read the flags that change. -/

namespace Sys2Proof.Machine

section SetFlags

variable (s : State) (e l g : Bool)

/-! ### Setting the flags and the other updates of the state -/

@[simp] theorem State.setFlags_setFlags (e' l' g' : Bool) :
    (s.setFlags e l g).setFlags e' l' g' = s.setFlags e' l' g' := rfl

@[simp] theorem State.setPc_setFlags (x : Pc) : (s.setFlags e l g).setPc x = (s.setPc x).setFlags e l g := rfl

@[simp] theorem State.writeReg_setFlags (i : RegIdx) (v : Byte) :
    (s.setFlags e l g).writeReg i v = (s.writeReg i v).setFlags e l g := rfl

@[simp] theorem State.halt_setFlags : (s.setFlags e l g).halt = s.halt.setFlags e l g := rfl

@[simp] theorem State.takeFault_setFlags (op : Option Byte) (c : FaultCause) :
    (s.setFlags e l g).takeFault op c = (s.takeFault op c).setFlags e l g := rfl

/-! ### Setting the flags and the shared operations -/

@[simp] theorem memRead_setFlags (a : Nat) : memRead a (s.setFlags e l g) = memRead a s := rfl

@[simp] theorem popRead_setFlags : popRead (s.setFlags e l g) = popRead s := rfl

@[simp] theorem memWrite_setFlags (a : Nat) (v : Byte) :
    memWrite a v (s.setFlags e l g) = (·.setFlags e l g) <$> memWrite a v s := by
  unfold memWrite
  split <;> rfl

@[simp] theorem pushSlot_setFlags :
    pushSlot (s.setFlags e l g) = (fun p => (p.1, p.2.setFlags e l g)) <$> pushSlot s := by
  simp [pushSlot]

@[simp] theorem popBump_setFlags : popBump (s.setFlags e l g) = (·.setFlags e l g) <$> popBump s := by
  simp [popBump]

@[simp] theorem emit_setFlags (v : Byte) : emit v (s.setFlags e l g) = (·.setFlags e l g) <$> emit v s := by
  have hok : (s.setFlags e l g).nextOutOk = s.nextOutOk := rfl
  unfold emit
  rw [hok]
  split <;> rfl

@[simp] theorem alu_setFlags (op : AluOp) (a b : RegIdx) :
    alu op a b (s.setFlags e l g) = (·.setFlags e l g) <$> alu op a b s := by
  cases op <;> rfl

@[simp] theorem branch_setFlags (taken : Bool) (target : Byte) :
    branch taken target (s.setFlags e l g) = (branch taken target s).setFlags e l g := by
  cases taken <;> rfl

@[simp] theorem compareFlags_setFlags (x y : Byte) : (s.setFlags e l g).compareFlags x y = s.compareFlags x y := by
  simp [State.compareFlags_eq]

@[simp] theorem advance_setFlags (i : Instr) : advance i (s.setFlags e l g) = (advance i s).setFlags e l g := by
  unfold advance
  split <;> rfl

/-- The end of a step with its flags set is the end of that step begun with the flags set, from a handler that answers with
the flags set. -/
theorem mapNext_setFlags_perform (i : Instr) (r : Raises State) :
    mapNext (·.setFlags e l g) (perform i s r) = perform i (s.setFlags e l g) ((·.setFlags e l g) <$> r) := by
  cases r <;> simp [perform_ok, perform_error, mapNext]

/-! ### The instructions -/

/-- Only CMP writes a flag. -/
theorem exec_flags {i : Instr} {s t : State} (hi : ∀ a b, i ≠ .cmp a b) (h : exec i s = .next t) :
    t.flagE = s.flagE ∧ t.flagL = s.flagL ∧ t.flagG = s.flagG := by
  rcases exec_cases h with heff | ⟨c, -, rfl⟩
  · cases heff with
    | cmp a b => exact absurd rfl (hi a b)
    | jeq | jne => simp [branch_eq]
    | hlt | ldi | prn | mul | push | pop | call | ret | jmp => exact ⟨rfl, rfl, rfl⟩
  · exact ⟨rfl, rfl, rfl⟩

/-- CMP on registers does not depend on the flags it finds. -/
theorem exec_cmp_setFlags {a b : Byte} (ha : a.toNat < 8) (hb : b.toNat < 8) :
    exec (.cmp a b) (s.setFlags e l g) = exec (.cmp a b) s := by
  simp [exec, execCmp, regIndexPair_of_lt ha hb, perform_ok]

/-- An instruction other than CMP carries set flags through, if E is as it was or the instruction is no conditional jump. -/
theorem exec_setFlags {i : Instr} (hcmp : ∀ a b, i ≠ .cmp a b) (hE : ∀ a, i = .jeq a ∨ i = .jne a → e = s.flagE) :
    exec i (s.setFlags e l g) = mapNext (·.setFlags e l g) (exec i s) := by
  cases i with
  | cmp a b => exact absurd rfl (hcmp a b)
  | jeq a =>
    obtain rfl := hE a (.inl rfl)
    simp [exec, execJeq, mapNext_setFlags_perform]
  | jne a =>
    obtain rfl := hE a (.inr rfl)
    simp [exec, execJne, mapNext_setFlags_perform]
  | hlt | ldi | prn | mul | pop | ret | jmp =>
    simp [exec, execHlt, execLdi, execPrn, execMul, execPop, execRet, execJmp, mapNext_setFlags_perform]
  | push | call => simp [exec, execPush, execCall, -memWrite_byte, mapNext_setFlags_perform]

/-- No instruction but CMP depends on L and G, and E stays as the instruction leaves it. -/
theorem exec_setFlags_keep_flagE {i : Instr} (hcmp : ∀ a b, i ≠ .cmp a b) :
    exec i (s.setFlags s.flagE l g) = mapNext (fun t => t.setFlags t.flagE l g) (exec i s) := by
  obtain ⟨t, ht⟩ := exec_next i s
  obtain ⟨hE, -, -⟩ := exec_flags hcmp ht
  rw [exec_setFlags s s.flagE l g hcmp fun _ _ => rfl, ht]
  simp [mapNext, hE]

end SetFlags

/-- Settles O44: `exec_flags` says what is written; that setting the flags commutes with `exec` says what is read. -/
theorem flagsWrittenByCmpReadByJeqJne : Obligations.FlagsWrittenByCmpReadByJeqJne :=
  ⟨fun _ _ _ hcmp h => exec_flags hcmp h,
    fun _ _ s e l g ha hb => exec_cmp_setFlags s e l g ha hb,
    fun _ s l g hcmp => exec_setFlags_keep_flagE s l g hcmp,
    fun _ s e l g hcmp hjeq hjne =>
      exec_setFlags s e l g hcmp fun a h => (h.elim (hjeq a) (hjne a)).elim⟩

end Sys2Proof.Machine
end

section
/-! PROOFS. The bounds check of a memory access (`20_memory.md` R52). -/

namespace Sys2Proof.Machine

variable {s : State} {a : Nat}

/-- The companion of `memRead_eq_error` for a write. -/
theorem memWrite_eq_error {v : Byte} {c : FaultCause} :
    memWrite a v s = .error c ↔ 256 ≤ a ∧ c = .outOfBounds .memory a := by
  unfold memWrite
  split <;> simp_all [eq_comm]

/-- Settles O18: each clause is a case of what a read and a write can answer. -/
theorem memoryAccessIsBoundsChecked : Obligations.MemoryAccessIsBoundsChecked := by
  intro a v s
  constructor
  · intro h
    have ha : a < 256 := Nat.lt_succ_of_le h
    exact ⟨memRead_eq_ok.2 ⟨ha, rfl⟩, _, memWrite_eq_ok.2 ⟨ha, rfl⟩⟩
  · intro h
    exact ⟨memRead_eq_error.2 ⟨h, rfl⟩, memWrite_eq_error.2 ⟨h, rfl⟩⟩

end Sys2Proof.Machine
end

section
/-! PROOFS. The instruction's bytes (`30_encoding.md` R72, R79, R80, R81): the whole opcode byte selects the instruction or
faults, it alone gives the length, and an immediate is its whole byte. -/

namespace Sys2Proof

/-! ### The opcode map -/

/-- The default map keeps what every map must keep (`30_encoding.md` R77, R80). -/
theorem opcodeMap_lawful : OpcodeMap.Lawful opcodeMap where
  distinct := Machine.opcodeMap_injective
  length := opLength_opcodeMap
  pcSet m := by cases m <;> decide

/-- A format has at most two operand bytes. -/
theorem Format.operandBytes_le (f : Format) : f.operandBytes ≤ 2 := by
  cases f <;> decide

/-- Settles O7: dispatch inverts the opcode map, which is injective. -/
theorem dispatchComparesWholeByte : Obligations.DispatchComparesWholeByte := by
  refine ⟨fun op m => ⟨dispatch_some, ?_⟩, opcodeMap_lawful.distinct⟩
  rintro rfl
  exact dispatch_opcode opcodeMap_lawful.distinct m

/-! ### Decoding under a lawful map -/

section Lawful

variable {map : OpcodeMap} (hmap : map.Lawful)
include hmap

/-- The length decode of an opcode counts the bytes of the instruction's encoding (`30_encoding.md` R72, R77). -/
theorem opLength_eq_length_encodeWith (i : Instr) : opLength (map i.mnemonic) = (encodeWith map i).length := by
  simp [encodeWith, hmap.length, i.operands_length]

/-- An encoded instruction decodes to itself, whatever its operand bytes are and whatever follows. -/
theorem decodeWith_encodeWith_append (i : Instr) (rest : List Byte) :
    decodeWith map (encodeWith map i ++ rest) = .ok (i, rest) := by
  have hfrom : decodeFrom map (listByte (encodeWith map i ++ rest)) .unknownOpcode = .ok i :=
    decodeFrom_of_reads hmap.distinct rfl fun k hk => listByte_eq_ok.2 (by simp [encodeWith, List.getElem?_append_left hk])
  simp [decodeWith, hfrom, opLength_eq_length_encodeWith hmap]

/-- Bytes that decode are the encoding of their instruction, then the rest: every byte of the encoding has been read, and no
other is dropped. -/
theorem eq_encodeWith_append_of_decodeWith {bytes rest : List Byte} {i : Instr}
    (h : decodeWith map bytes = .ok (i, rest)) : bytes = encodeWith map i ++ rest := by
  obtain ⟨j, hj, hret⟩ := bind_eq_ok.1 h
  obtain ⟨rfl, rfl⟩ := Prod.mk.inj (Except.ok.inj hret)
  obtain ⟨hop, hoperand⟩ := decodeFrom_eq_ok hj
  have hread : ∀ k (hk : k < (encodeWith map j).length), bytes[k]? = some (encodeWith map j)[k]
    | 0, _ => listByte_eq_ok.1 hop
    | k + 1, hk => listByte_eq_ok.1 (hoperand k (Nat.lt_of_succ_lt_succ hk))
  have hprefix : encodeWith map j <+: bytes := List.prefix_iff_getElem?.2 hread
  rw [opLength_eq_length_encodeWith hmap]
  exact (List.prefix_iff_eq_append.1 hprefix).symm

end Lawful

/-- Settles O8: the bytes are the encoding and the rest, and the encoding is the opcode and the operands of its format. -/
theorem lengthIsDecodedFromOpcode : Obligations.LengthIsDecodedFromOpcode := by
  intro bytes rest i h
  obtain rfl := eq_encodeWith_append_of_decodeWith opcodeMap_lawful h
  refine ⟨i.opcode, i.operands ++ rest, rfl, rfl, ?_, ?_⟩
  · rw [List.length_append, ← opLength_eq_length_encodeWith opcodeMap_lawful]
    rfl
  · have hle := i.mnemonic.format.operandBytes_le
    rw [i.length_eq]
    omega

/-! ### A byte without a handler -/

/-- A byte that is no instruction's opcode fails the decoding as soon as it is read: only `read 0` matters. -/
theorem decodeFrom_of_no_opcode {ε : Type} {map : OpcodeMap} {read : Nat → Except ε Byte} {unknown : Byte → ε}
    {op : Byte} (hread : read 0 = .ok op) (hop : ∀ m, map m ≠ op) : decodeFrom map read unknown = .error (unknown op) := by
  simp [decodeFrom, hread, dispatch_none.2 hop]

/-- Length bits 11 would give a length of 4, which no format has. -/
theorem opcodeMap_length_bits_ne (m : Mnemonic) : opcodeMap m >>> 6 ≠ 0b11 := by
  intro hbits
  have hfour : opLength (opcodeMap m) = 4 := by simp [opLength, hbits]
  have hlen := opLength_opcodeMap m
  have hle := m.format.operandBytes_le
  omega

namespace Machine

/-- A running machine at a byte in memory that is no opcode takes `UnknownOpcode` (`30_encoding.md` R81,
`40_execution_loop.md` R105). -/
theorem step_of_no_opcode {s : State} (hs : s.status = .running) (hpc : s.pc.toNat < 256)
    (hop : ∀ m, opcodeMap m ≠ s.mem.read s.pc.toNat) :
    step s = .next (s.takeFault (some (s.mem.read s.pc.toNat)) (.unknownOpcode (s.mem.read s.pc.toNat) s.pc)) := by
  have hfetch : fetch s = .error (.unknownOpcode (s.mem.read s.pc.toNat) s.pc) :=
    decodeFrom_of_no_opcode (memRead_eq_ok.2 ⟨hpc, rfl⟩) hop
  have hfetched : fetchedOpcode s = some (s.mem.read s.pc.toNat) := if_pos hpc
  rw [step_of_fetch_error hs hfetch, hfetched]

/-- Settles O15: `step_of_no_opcode` is the fault; which bytes are no opcodes is read off the opcode map. -/
theorem unknownOpcodeFaults : Obligations.UnknownOpcodeFaults := by
  refine ⟨fun s hs hpc hop => step_of_no_opcode hs (Nat.lt_succ_of_le hpc) hop, ?_, ?_, ?_⟩
  · decide +kernel
  · intro m
    cases m <;> decide
  · rintro m _ hbits rfl
    exact opcodeMap_length_bits_ne m hbits

/-! ### LDI's immediate -/

/-- Settles O29: the decoder hands the operand byte over as it stands, and the handler writes it as it stands. -/
theorem ldiWritesImmediateUnchanged : Obligations.LdiWritesImmediateUnchanged := by
  refine ⟨fun a imm => decodeWith_encodeWith_append opcodeMap_lawful (.ldi a imm) [], fun a imm s h => ?_⟩
  rw [exec, execLdi, regIndex_of_lt h, ok_bind, pure_eq_ok, perform_ok, advance_ldi]
  rfl

end Machine

end Sys2Proof
end

section
/-! PROOFS. The execution loop (`40_execution_loop.md` R101, R104, R110, R115): the PC-set bit decides the advance, and a
running machine's step ends in one of the controller's three states. -/

namespace Sys2Proof

/-! ### The PC-set bit -/

/-- The mask test of R104 is the test of bit 4 (`30_encoding.md` R71). -/
theorem opPcSet_eq_getLsbD (op : Byte) : opPcSet op = op.getLsbD 4 := by
  have hmask : op &&& 0b00010000 = if op.getLsbD 4 then 0b00010000 else 0 := BitVec.and_twoPow op 4
  rw [opPcSet, hmask]
  cases op.getLsbD 4 <;> rfl

theorem Instr.opPcSet_opcode (i : Instr) : opPcSet i.opcode = true ↔ i.pcControl = .handlerControlsPc :=
  opcodeMap_lawful.pcSet i.mnemonic

theorem Mnemonic.pcControl_eq_handlerControlsPc (m : Mnemonic) :
    m.pcControl = .handlerControlsPc ↔ m ∈ [Mnemonic.call, .ret, .jmp, .jeq, .jne] := by
  cases m <;> decide

theorem Mnemonic.pcControl_eq_autoAdvance (m : Mnemonic) :
    m.pcControl = .autoAdvance ↔ m ∈ [Mnemonic.ldi, .prn, .hlt, .mul, .push, .pop, .cmp] := by
  cases m <;> decide

/-- Settles O9: the property is the mnemonic's, and the opcode map is lawful, so bit 4 tells it. -/
theorem pcControlIsOpcodeBitFour : Obligations.PcControlIsOpcodeBitFour := by
  intro i
  refine ⟨i.mnemonic.pcControl_eq_handlerControlsPc, i.mnemonic.pcControl_eq_autoAdvance, ?_⟩
  rw [← opPcSet_eq_getLsbD, i.opPcSet_opcode]

namespace Machine

variable {s t : State} {i : Instr}

/-- The loop's advance in terms of the PC-set bit in place of the PC-control property. -/
theorem advance_eq_ite_opPcSet (i : Instr) (s : State) :
    advance i s = if opPcSet i.opcode then s else s.setPc (s.pc + BitVec.ofNat 9 i.length) := by
  cases hc : i.pcControl with
  | handlerControlsPc => rw [advance_handlerControlsPc hc, if_pos (i.opPcSet_opcode.2 hc)]
  | autoAdvance =>
    have hclear : ¬opPcSet i.opcode = true := by simp [i.opPcSet_opcode, hc]
    rw [advance_autoAdvance hc, if_neg hclear]

/-- Settles O19: a handler that completes leaves the end of the step to `advance`, which the mask decides. -/
theorem loopAdvancesUnlessPcSetBit : Obligations.LoopAdvancesUnlessPcSetBit := by
  intro i s t
  rw [perform_ok, advance_eq_ite_opPcSet]
  simp [opPcSet, State.setPc]

/-! ### Where a step is defined -/

/-- A running machine is never stuck: its instruction ends in a next state, and so does a fault of its fetch. -/
theorem step_next_of_running (hs : s.status = .running) : ∃ t, step s = .next t := by
  cases hf : fetch s with
  | ok i => exact step_of_fetch hs hf ▸ exec_next i s
  | error c => exact ⟨_, step_of_fetch_error hs hf⟩

/-- Only a running machine has a step. -/
theorem running_of_step_next (h : step s = .next t) : s.status = .running := (step_eq_next.1 h).1

/-- Settles O12: `running_of_step_next` and, in the other direction, `step_next_of_running`. -/
theorem stepDefinedExactlyWhenRunning : Obligations.StepDefinedExactlyWhenRunning :=
  fun _ => ⟨fun ⟨_, h⟩ => running_of_step_next h, step_next_of_running⟩

/-! ### The controller -/

@[simp] theorem branch_status (taken : Bool) (target : Byte) : (branch taken target s).status = s.status := by
  simp [branch_eq]

/-- Of the instructions that complete, HLT halts and every other one keeps the status. -/
theorem Effect.status_eq (h : Effect s i t) : t.status = if i = .hlt then .halted else s.status := by
  cases h with
  | hlt => rfl
  | cmp a b r q => simp [State.compareFlags_eq]
  | jeq a r => simp
  | jne a r => simp
  | ldi | prn | mul | push | pop | call | ret | jmp => rfl

/-- Executed from `RUNNING`, exactly HLT ends in `HALTED`: it raises nothing, and a fault taken is no halt. -/
theorem exec_halted_iff (hs : s.status = .running) (h : exec i s = .next t) : t.status = .halted ↔ i = .hlt := by
  rcases exec_cases h with heffect | ⟨c, hraised, rfl⟩
  · simp [heffect.status_eq, hs]
  · have hne : i ≠ .hlt := by
      rintro rfl
      cases hraised with
      | register _ _ hf => simp [Instr.regFields] at hf
    simp [hne]

/-- A step ends in `HALTED` exactly when it has fetched HLT. -/
theorem step_halted_iff (h : step s = .next t) : t.status = .halted ↔ fetch s = .ok .hlt := by
  obtain ⟨hs, ⟨i, hf, hexec⟩ | ⟨c, hf, rfl⟩⟩ := step_eq_next.1 h
  · simp [exec_halted_iff hs hexec, hf]
  · simp [hf]

theorem Status.running_or_halted_or_fault (x : Status) : x = .running ∨ x = .halted ∨ ∃ info, x = .fault info := by
  cases x <;> simp

/-- Settles O13: HLT's transition is `step_halted_iff`, and a fault of the fetch or of a handler is taken with its cause. -/
theorem controllerTransitions : Obligations.ControllerTransitions := by
  refine ⟨fun s t _ h => ⟨step_halted_iff h, t.status.running_or_halted_or_fault⟩, fun s c hs hf => ?_, fun i s c => ?_,
    fun s t hs h => hs (running_of_step_next h)⟩
  · exact ⟨_, _, step_of_fetch_error hs hf, rfl, rfl⟩
  · exact ⟨_, _, perform_error c, rfl, rfl⟩

end Machine

end Sys2Proof
end

section
/-! PROOFS. The ALU's MUL and its unsupported operations (`42_alu_multiply.md` R152, R153): a byte's product is the same
for both readings of the sign, and no fault of a step is the unsupported-operation error. -/

namespace Sys2Proof.Machine

variable {s t : State} {i : Instr}

/-! ### The product -/

/-- A result taken modulo 256 is truncated to the same byte. -/
theorem trunc8_mod (n : Nat) : trunc8 (n % 256) = trunc8 n := by
  apply BitVec.eq_of_toNat_eq
  simp

/-- The truncated product of the unsigned readings is the bytes' product. -/
theorem trunc8_toNat_mul (x y : Byte) : trunc8 (x.toNat * y.toNat) = x * y :=
  (BitVec.ofNat_mul ..).trans (by simp)

/-- The truncated product of the signed readings is the bytes' product. -/
theorem ofInt_toInt_mul (x y : Byte) : BitVec.ofInt 8 (x.toInt * y.toInt) = x * y := by
  rw [BitVec.ofInt_mul, BitVec.ofInt_toInt, BitVec.ofInt_toInt]

/-- The full product of two bytes, whose high half MUL drops. -/
theorem toNat_mul_toNat_le (x y : Byte) : x.toNat * y.toNat ≤ 65025 :=
  Nat.mul_le_mul (Nat.le_of_lt_succ x.isLt) (Nat.le_of_lt_succ y.isLt)

/-- Settles O25: both readings of the operands truncate to the one product of the bytes. -/
theorem aluMulWraps : Obligations.AluMulWraps := by
  intro a b s
  have hmod := trunc8_mod ((s.readReg a).toNat * (s.readReg b).toNat)
  refine ⟨alu_eq_ok.2 (.inr ⟨rfl, congrArg (s.writeReg a) hmod⟩), toNat_mul_toNat_le _ _, ?_⟩
  calc trunc8 ((s.readReg a).toNat * (s.readReg b).toNat % 256)
    _ = trunc8 ((s.readReg a).toNat * (s.readReg b).toNat) := hmod
    _ = s.readReg a * s.readReg b := trunc8_toNat_mul _ _
    _ = BitVec.ofInt 8 ((s.readReg a).toInt * (s.readReg b).toInt) := (ofInt_toInt_mul _ _).symm

/-! ### What a faulting step has taken -/

/-- An instruction that completes from `RUNNING` ends in no fault. -/
theorem Effect.status_ne_fault (hs : s.status = .running) (h : Effect s i t) (info : FaultRecord) :
    t.status ≠ .fault info := by
  rw [h.status_eq, hs]
  split <;> simp

/-- A step that ends in a fault took it in the state before: the fetch raised it, or the fetched instruction did. -/
theorem step_fault_cases {info : FaultRecord} (h : step s = .next t) (hfault : t.status = .fault info) :
    (fetch s = .error info.cause ∧ t = s.takeFault (fetchedOpcode s) info.cause) ∨
      ∃ i, fetch s = .ok i ∧ Raised s i info.cause ∧ t = s.takeFault (some i.opcode) info.cause := by
  obtain ⟨hs, ⟨i, hf, hexec⟩ | ⟨c, hf, rfl⟩⟩ := step_eq_next.1 h
  · rcases exec_cases hexec with heffect | ⟨c, hraised, rfl⟩
    · exact absurd hfault (heffect.status_ne_fault hs info)
    · obtain rfl := Status.fault.inj hfault
      exact .inr ⟨i, hf, hraised, rfl⟩
  · obtain rfl := Status.fault.inj hfault
    exact .inl ⟨hf, rfl⟩

/-! ### The unsupported operation -/

theorem fetch_ne_unsupportedAluOperation (s : State) (name : String) :
    fetch s ≠ .error (.unsupportedAluOperation name) := by
  intro h
  rcases fetch_eq_error h with ⟨_, hc⟩ | ⟨a, _, _, _, hc⟩ <;> cases hc

/-- No instruction gives the ALU an operation other than ADD and MUL. -/
theorem not_raised_unsupportedAluOperation (name : String) : ¬Raised s i (.unsupportedAluOperation name) := nofun

/-- Settles O27: the ALU's answer is its definition's last case, and neither a fetch nor an instruction raises the cause. -/
theorem unsupportedAluOperationUnreachable : Obligations.UnsupportedAluOperationUnreachable := by
  refine ⟨fun name a b s => rfl, fun s t info name h hfault hcause => ?_⟩
  rcases step_fault_cases h hfault with ⟨hfetch, _⟩ | ⟨i, _, hraised, _⟩
  · exact fetch_ne_unsupportedAluOperation s name (hcause ▸ hfetch)
  · exact not_raised_unsupportedAluOperation name (hcause ▸ hraised)

end Sys2Proof.Machine
end

section
/-! PROOFS. CMP (`45_compare.md` R211): its flags are the unsigned comparisons of its two registers. -/

namespace Sys2Proof.Machine

variable {s : State}

/-- CMP's flags in terms of the operands' unsigned values alone. -/
theorem State.compareFlags_eq_toNat (x y : Byte) :
    s.compareFlags x y = s.setFlags (x.toNat = y.toNat) (x.toNat < y.toNat) (y.toNat < x.toNat) := by
  simp only [State.compareFlags_eq, BitVec.toNat_inj]

/-- CMP on registers completes with the flags set and the pc advanced. -/
theorem exec_cmp_of_lt {a b : Byte} (ha : a.toNat < 8) (hb : b.toNat < 8) :
    exec (.cmp a b) s =
      .next ((s.compareFlags (s.readReg ⟨a.toNat, ha⟩) (s.readReg ⟨b.toNat, hb⟩)).setPc (s.pc + 3)) := by
  have hpc (x y : Byte) : (s.compareFlags x y).pc = s.pc := by rw [State.compareFlags_eq]; rfl
  simp only [exec, execCmp, regIndexPair_of_lt ha hb, ok_bind, pure_eq_ok, perform_ok, advance_cmp, hpc]

/-- Settles O37: CMP completes on registers, and equal bytes are those of equal unsigned value. -/
theorem cmpComparesUnsigned : Obligations.CmpComparesUnsigned := by
  intro a b s ha hb
  rw [exec_cmp_of_lt ha hb, State.compareFlags_eq_toNat]
  rfl

end Sys2Proof.Machine
end

section
/-! PROOFS. Faults (`60_exceptions.md` R250): a fault stops the machine and ends the run. -/

namespace Sys2Proof.Machine

variable {s t : State}

/-- From `FAULT` there is no next state, only the record again: no handler, no return. -/
theorem step_of_status_fault {info : FaultRecord} (hs : s.status = .fault info) : step s = .fault (.faulted info) := by
  simp only [step, hs]

/-- A step that ends in a fault has cleared `running`: both the fetch's fault and the instruction's are taken by `takeFault`. -/
theorem running_eq_false_of_step_fault {info : FaultRecord} (h : step s = .next t) (hfault : t.status = .fault info) :
    t.running = false := by
  rcases step_fault_cases h hfault with ⟨_, rfl⟩ | ⟨_, _, _, rfl⟩
  · exact s.takeFault_running _ _
  · exact s.takeFault_running _ _

/-- Settles O20: `takeFault` stops the machine with the record, every faulting step ends in it, and a faulted state has no
step. -/
theorem faultEndsTheRun : Obligations.FaultEndsTheRun :=
  ⟨fun s op c => ⟨s.takeFault_running op c, s.takeFault_status op c⟩,
    fun _ _ _ h hfault => ⟨running_eq_false_of_step_fault h hfault, step_of_status_fault hfault⟩⟩

end Sys2Proof.Machine
end

section
/-! PROOFS. Encoding and decoding: both round trips under every lawful map, the default map, and written-out encodings. -/

namespace Sys2Proof

/-- Settles O4: an instruction's encoding is read back byte for byte. -/
theorem decodeOfEncode : Obligations.DecodeOfEncode :=
  fun _ hmap => decodeWith_encodeWith_append hmap

/-- Settles O5: every byte that a decoding consumes is one of its instruction's encoding. -/
theorem encodeOfDecode : Obligations.EncodeOfDecode :=
  fun _ hmap _ _ _ => eq_encodeWith_append_of_decodeWith hmap

/-- Settles O6: the table of the map, read row by row. -/
theorem defaultOpcodeMapIsLawful : Obligations.DefaultOpcodeMapIsLawful := opcodeMap_lawful

/-- Settles O10: the words are encodings under the default map, and 0xA0 is not one of its bytes. -/
theorem specWordsDecode : Obligations.SpecWordsDecode := by
  have hround := decodeWith_encodeWith_append opcodeMap_lawful
  refine ⟨hround .hlt [], hround (.ldi 5 255) [], hround (.mul 2 7) [], hround (.call 1) [0b10101010], hround .ret [], ?_⟩
  have hunknown : ∀ m, opcodeMap m ≠ 0b10100000 := by
    intro m
    cases m <;> decide
  rw [decode, decodeWith, decodeFrom_of_no_opcode (listByte_eq_ok.2 rfl) hunknown, error_bind]

end Sys2Proof
end

section
/-! PROOFS. The fetch (`40_execution_loop.md` R100 to R106): which bytes it reads, and the faults of an address past 255. -/

namespace Sys2Proof

section DecodeFrom

variable {ε : Type} {map : OpcodeMap} {read : Nat → Except ε Byte} {unknown : Byte → ε}

/-- Without an opcode byte there is nothing to decode. -/
theorem decodeFrom_of_read_zero_error {e : ε} (h : read 0 = .error e) : decodeFrom map read unknown = .error e := by
  simp [decodeFrom, h]

/-- The first operand byte of the format that cannot be read fails the decoding. -/
theorem decodeFrom_of_operand_error {op : Byte} {m : Mnemonic} {k : Nat} {e : ε} (hop : read 0 = .ok op)
    (hm : dispatch map op = some m) (hk : k < m.format.operandBytes) (hbefore : ∀ j < k, ∃ b, read (j + 1) = .ok b)
    (herr : read (k + 1) = .error e) : decodeFrom map read unknown = .error e := by
  have hle := m.format.operandBytes_le
  obtain rfl | rfl : k = 0 ∨ k = 1 := by omega
  · cases m with
    | hlt | ret => exact absurd hk (Nat.not_lt_zero 0)
    | ldi | mul | cmp | prn | push | pop | call | jmp | jeq | jne => simp [decodeFrom, hop, hm, herr]
  · obtain ⟨b, hb⟩ := hbefore 0 Nat.one_pos
    cases m with
    | hlt | ret | prn | push | pop | call | jmp | jeq | jne => simp [Mnemonic.format, Format.operandBytes] at hk
    | ldi | mul | cmp => simp [decodeFrom, hop, hm, hb, herr]

/-- A decoding looks at the first three bytes of its source only. -/
theorem decodeFrom_congr {read' : Nat → Except ε Byte} (h : ∀ k < 3, read k = read' k) :
    decodeFrom map read unknown = decodeFrom map read' unknown := by
  simp only [decodeFrom, h 0 (by decide), h 1 (by decide), h 2 (by decide)]

end DecodeFrom

namespace Machine

variable {s t : State} {i : Instr}

/-! ### An address past 255 -/

/-- A pc above 255 is the fault of its fetch. -/
theorem fetch_of_pc_past_memory (h : 256 ≤ s.pc.toNat) : fetch s = .error (.outOfBounds .memory s.pc.toNat) :=
  decodeFrom_of_read_zero_error (memRead_eq_error.2 ⟨h, rfl⟩)

/-- Operand bytes past 255 are the fault of the fetch at address 256: every byte before it can be read. -/
theorem fetch_of_operand_past_memory {m : Mnemonic} (hpc : s.pc.toNat < 256) (hop : s.mem.read s.pc.toNat = opcodeMap m)
    (hpast : 255 < s.pc.toNat + m.format.operandBytes) : fetch s = .error (.outOfBounds .memory 256) := by
  refine decodeFrom_of_operand_error (k := 255 - s.pc.toNat) (memRead_eq_ok.2 ⟨hpc, hop.symm⟩)
    (dispatch_opcode opcodeMap_injective m) (by omega) (fun j hj => ⟨_, memRead_eq_ok.2 ⟨by omega, rfl⟩⟩) ?_
  have haddr : s.pc.toNat + (255 - s.pc.toNat + 1) = 256 := by omega
  simp only [haddr]
  exact memRead_eq_error.2 ⟨Nat.le_refl 256, rfl⟩

theorem fetchedOpcode_of_lt (h : s.pc.toNat < 256) : fetchedOpcode s = some (s.mem.read s.pc.toNat) := if_pos h

theorem fetchedOpcode_of_ge (h : 256 ≤ s.pc.toNat) : fetchedOpcode s = none := if_neg (Nat.not_lt.2 h)

/-- Settles O14: a pc past memory has no byte to fetch, and a fetched instruction has been read from memory. -/
theorem opcodeFetch : Obligations.OpcodeFetch := by
  constructor
  · intro s hs hpc
    rw [step_of_fetch_error hs (fetch_of_pc_past_memory hpc), fetchedOpcode_of_ge hpc]
    rfl
  · intro s i h
    obtain ⟨hlt, hop, -⟩ := fetch_eq_ok h
    exact ⟨by omega, hop.symm⟩

/-- Settles O16: the fetch raises before any register field is looked at. -/
theorem operandPastMemoryFaults : Obligations.OperandPastMemoryFaults := by
  intro s m hs hpc hop hpast
  have hlt : s.pc.toNat < 256 := Nat.lt_succ_of_le hpc
  rw [step_of_fetch_error hs (fetch_of_operand_past_memory hlt hop hpast), fetchedOpcode_of_lt hlt, hop]
  rfl

/-! ### The bytes a fetch reads -/

/-- Settles O17: a fetch decodes at most three bytes, each read from memory at the pc. -/
theorem fetchDependsOnlyOnBytesAtPc : Obligations.FetchDependsOnlyOnBytesAtPc := by
  intro s t hpc hread
  rw [fetch, fetch, ← hpc]
  refine decodeFrom_congr fun k hk => ?_
  rw [memRead, memRead, hread k hk, hpc]

/-- The bytes from the pc to the end of memory are what the fetch's reads answer. -/
theorem memRead_of_codeBytes {k : Nat} {b : Byte} (h : (codeBytes s)[k]? = some b) :
    memRead (s.pc.toNat + k) s = .ok b := by
  obtain ⟨hk, hb⟩ := List.getElem?_eq_some_iff.1 h
  simp only [codeBytes, Memory.readBytes, List.length_map, List.length_range', Config.memSize] at hk
  refine memRead_eq_ok.2 ⟨by omega, ?_⟩
  rw [← hb]
  simp [codeBytes, Memory.readBytes]

/-- What the bytes from the pc on decode to is what is fetched. -/
theorem fetch_of_decode_codeBytes {rest : List Byte} (h : decode (codeBytes s) = .ok (i, rest)) : fetch s = .ok i := by
  obtain ⟨j, hj, hret⟩ := bind_eq_ok.1 h
  obtain ⟨rfl, -⟩ := Prod.mk.inj (Except.ok.inj hret)
  obtain ⟨hop, hoperand⟩ := decodeFrom_eq_ok hj
  exact decodeFrom_of_reads opcodeMap_injective (memRead_of_codeBytes (listByte_eq_ok.1 hop))
    fun k hk => memRead_of_codeBytes (listByte_eq_ok.1 (hoperand k hk))

/-- Settles O11: the fetch reads the bytes that decode. -/
theorem stepRunsDecodedInstruction : Obligations.StepRunsDecodedInstruction :=
  fun _ _ _ hs h => step_of_fetch hs (fetch_of_decode_codeBytes h)

end Machine

end Sys2Proof
end

section
/-! PROOFS. Faults (`60_exceptions.md` R251, R254, R256, R257): what a faulting step records and leaves as it was, the list
of its causes, and where the register check and the stack operations raise. -/

namespace Sys2Proof.Machine

variable {s t : State} {i : Instr} {a b f : Byte}

/-! ### The fault of a step -/

/-- The record holds the opcode of the instruction it names: the byte at the pc. -/
theorem opcode_eq_fetchedOpcode (h : fetch s = .ok i) : some i.opcode = fetchedOpcode s := by
  obtain ⟨hlt, hop, -⟩ := fetch_eq_ok h
  rw [fetchedOpcode_of_lt (by omega), hop]

/-- Whoever raised it, a step's fault is taken in the state before with the byte at the pc as its opcode. -/
theorem eq_takeFault_of_step_fault {info : FaultRecord} (h : step s = .next t) (hfault : t.status = .fault info) :
    t = s.takeFault (fetchedOpcode s) info.cause := by
  rcases step_fault_cases h hfault with ⟨_, ht⟩ | ⟨i, hf, _, ht⟩
  · exact ht
  · rw [ht, opcode_eq_fetchedOpcode hf]

/-- Settles O21: `takeFault` changes nothing but the end of the run, and the record is its own. -/
theorem faultsArePrecise : Obligations.FaultsArePrecise := by
  rintro s t ⟨pc, op, c⟩ h hfault
  obtain rfl := eq_takeFault_of_step_fault h hfault
  obtain ⟨rfl, rfl, -⟩ := FaultRecord.mk.inj (Status.fault.inj hfault)
  refine ⟨rfl, rfl, ?_⟩
  simp only [fetchedOpcode, Nat.lt_succ_iff]

/-- Settles O22: the faults of a fetch and of an instruction, where the return address of a CALL that lies in memory is
too large by 1 at most. -/
theorem faultCausesAreListed : Obligations.FaultCausesAreListed := by
  intro s t info h hfault
  rcases step_fault_cases h hfault with ⟨hfetch, _⟩ | ⟨i, hfetch, hraised, _⟩
  · rcases fetch_eq_error hfetch with ⟨_, hc⟩ | haddr
    · exact .inl hc
    · exact .inr (.inl haddr)
  · obtain ⟨pc, op, c⟩ := info
    refine .inr (.inr ?_)
    cases hraised with
    | register _ f _ hf => exact .inl ⟨f, hf, rfl⟩
    | pushAtZero | callAtZero => exact .inr (.inl rfl)
    | callReturn a hpc =>
      obtain ⟨hlt, -, -⟩ := fetch_eq_ok hfetch
      simp only [Instr.operands, List.length_singleton] at hlt
      obtain hpc : s.pc.toNat = 254 := by omega
      exact .inr (.inr (.inl (by simp [hpc])))
    | pop | ret => exact .inr (.inr (.inl rfl))
    | output => exact .inr (.inr (.inr rfl))

/-! ### The register check (`40_execution_loop.md` R107) -/

theorem regIndex_of_first_bad (h : [a].find? (fun x => decide (7 < x.toNat)) = some f) :
    regIndex a = .error (.outOfBounds .register f.toNat) := by
  obtain ⟨hbad, rfl⟩ : 7 < a.toNat ∧ a = f := by simpa [List.find?_singleton] using h
  exact regIndex_eq_error.2 ⟨hbad, rfl⟩

theorem regIndexPair_of_first_bad (h : [a, b].find? (fun x => decide (7 < x.toNat)) = some f) :
    regIndexPair a b = .error (.outOfBounds .register f.toNat) := by
  by_cases ha : 7 < a.toNat
  · obtain rfl : a = f := by simpa [ha] using h
    exact regIndexPair_eq_error.2 (.inl ⟨ha, rfl⟩)
  · obtain ⟨hbad, rfl⟩ : 7 < b.toNat ∧ b = f := by simpa [ha, List.find?_singleton] using h
    exact regIndexPair_eq_error.2 (.inr ⟨by omega, hbad, rfl⟩)

/-- Settles O23: every handler with a register field begins with the check of its fields. -/
theorem registerIndexAboveSevenFaults : Obligations.RegisterIndexAboveSevenFaults := by
  intro i s f h
  show exec i s = .next (s.takeFault (some i.opcode) (.outOfBounds .register f.toNat))
  cases i with
  | hlt | ret => cases h
  | mul | cmp => simp only [exec, execMul, execCmp, regIndexPair_of_first_bad h, error_bind, perform_error]
  | ldi | prn | push | pop | call | jmp | jeq | jne =>
    simp only [exec, execLdi, execPrn, execPush, execPop, execCall, execJmp, execJeq, execJne, regIndex_of_first_bad h,
      error_bind, perform_error]

/-! ### The stack's range (`43_stack.md` R170, R171, `44_subroutine.md` R190) -/

theorem pushSlot_of_sp_zero (h : s.sp = 0) : pushSlot s = .error (.outOfBounds .value (-1)) :=
  pushSlot_eq_error.2 ⟨h, rfl⟩

theorem popBump_of_sp_255 (h : s.sp = 255) : popBump s = .error (.outOfBounds .value 256) :=
  popBump_eq_error.2 ⟨by rw [h]; rfl, rfl⟩

/-- A return address in 0 to 255 passes the check of CALL. -/
theorem checked8_return_address (h : s.pc.toNat ≤ 253) :
    checked8 (s.pc.toNat + 2) = .ok (BitVec.ofNat 8 (s.pc.toNat + 2)) := by
  rw [checked8_eq_ok, BitVec.toNat_ofNat]
  omega

/-- A POP writes its register before SP is incremented, so POP of R7 increments the byte it has read. -/
theorem writeReg_sp_of_toNat (ha : a.toNat < 8) (v : Byte) :
    (s.writeReg ⟨a.toNat, ha⟩ v).sp = if a = 7 then v else s.sp := by
  have hidx : Config.spIndex = ⟨a.toNat, ha⟩ ↔ a = 7 := by
    simp only [Fin.ext_iff, ← BitVec.toNat_inj, eq_comm (a := a.toNat)]
    rfl
  simp only [State.writeReg_sp, hidx]

/-- Settles O24: the clauses are the ranges that `pushSlot`, `popBump` and CALL's check of the return address leave. -/
theorem stackRangeFaults : Obligations.StackRangeFaults := by
  intro a s ha
  refine ⟨fun hsp => ?push, fun hne hsp => ?pop, fun hread => ?popSp, fun hsp => ?ret, fun hpc => ?callReturn,
    fun hpc hsp => ?call⟩
  case push =>
    simp only [exec, execPush, regIndex_of_lt ha, ok_bind, pushSlot_of_sp_zero hsp, error_bind, perform_error]
    rfl
  case pop =>
    have hbump := popBump_of_sp_255 ((writeReg_sp_of_toNat ha (s.mem.read s.sp.toNat)).trans ((if_neg hne).trans hsp))
    simp only [exec, execPop, regIndex_of_lt ha, ok_bind, popRead_eq, hbump, perform_error]
    rfl
  case popSp =>
    have h7 : (7 : Byte).toNat < 8 := by decide
    have hbump := popBump_of_sp_255 ((writeReg_sp_of_toNat (s := s) h7 (s.mem.read s.sp.toNat)).trans hread)
    simp only [exec, execPop, regIndex_of_lt h7, ok_bind, popRead_eq, hbump, perform_error]
    rfl
  case ret =>
    have hbump : popBump (s.setPc (zext9 (s.mem.read s.sp.toNat))) = _ := popBump_of_sp_255 hsp
    simp only [exec, execRet, ok_bind, popRead_eq, hbump, perform_error]
    rfl
  case callReturn =>
    have hret : checked8 (s.pc.toNat + 2) = .error (.outOfBounds .value (s.pc.toNat + 2)) :=
      checked8_eq_error.2 ⟨by omega, rfl⟩
    simp only [exec, execCall, regIndex_of_lt ha, ok_bind, hret, error_bind, perform_error]
    rfl
  case call =>
    simp only [exec, execCall, regIndex_of_lt ha, ok_bind, checked8_return_address hpc, pushSlot_of_sp_zero hsp, error_bind,
      perform_error]
    rfl

end Sys2Proof.Machine
end

section
/-! PROOFS. What each instruction does when it completes (`41_load_output_halt.md` to `44_subroutine.md`, `46_jumps.md`), and
the ALU's ADD and flags (`42_alu_multiply.md` §1). -/

namespace Sys2Proof.Machine

variable {s : State} {a : Byte}

/-! ### The ALU -/

/-- Settles O26: truncation is the remainder by 256. -/
theorem aluAddWraps : Obligations.AluAddWraps :=
  fun a _ s => alu_eq_ok.2 (.inl ⟨rfl, congrArg (s.writeReg a) (trunc8_mod _)⟩)

/-- Settles O28: an operation that completes has written one register. -/
theorem aluWritesNoFlag : Obligations.AluWritesNoFlag := by
  intro op a b s t h
  rcases alu_eq_ok.1 h with ⟨_, rfl⟩ | ⟨_, rfl⟩
  · exact ⟨rfl, rfl, rfl⟩
  · exact ⟨rfl, rfl, rfl⟩

/-- Settles O32: the ALU's product, then the loop's advance. -/
theorem mulWritesProduct : Obligations.MulWritesProduct := by
  intro a b s ha hb
  simp only [exec, execMul, regIndexPair_of_lt ha hb, ok_bind, (aluMulWraps _ _ s).1, perform_ok, advance_mul]
  rfl

/-! ### Output and halt -/

/-- Settles O30: the host's answer decides whether `emit` completes. -/
theorem prnEmitsRegister : Obligations.PrnEmitsRegister := by
  refine fun a s h => ⟨fun hok => ?accepted, fun hok => ?refused⟩
  case accepted =>
    simp only [exec, execPrn, regIndex_of_lt h, ok_bind, emit_eq_ok.2 ⟨hok, rfl⟩, perform_ok, advance_prn]
    rfl
  case refused =>
    simp only [exec, execPrn, regIndex_of_lt h, ok_bind, emit_eq_error.2 ⟨hok, rfl⟩, perform_error]
    rfl

/-- Settles O31: the handler halts, and the loop advances even so. -/
theorem hltHalts : Obligations.HltHalts := by
  intro s
  rw [exec, execHlt, perform_ok, advance_hlt]
  rfl

/-! ### The stack -/

theorem toNat_sp_sub_one (h : s.sp ≠ 0) : (s.sp - 1).toNat = s.sp.toNat - 1 := by
  bv_omega

theorem pushSlot_of_sp_ne_zero (h : s.sp ≠ 0) : pushSlot s = .ok (s.sp - 1, s.writeReg Config.spIndex (s.sp - 1)) := by
  refine pushSlot_eq_ok.2 ⟨?_, rfl⟩
  bv_omega

theorem popBump_of_sp_ne_255 (h : s.sp ≠ 255) : popBump s = .ok (s.writeReg Config.spIndex (s.sp + 1)) := by
  refine popBump_eq_ok.2 ⟨s.sp + 1, ?_, rfl⟩
  bv_omega

/-- The register a PUSH or a CALL reads after SP has moved to `sp`. -/
theorem writeSp_readReg_of_toNat (ha : a.toNat < 8) (sp : Byte) :
    (s.writeReg Config.spIndex sp).readReg ⟨a.toNat, ha⟩ = if a = 7 then sp else s.readReg ⟨a.toNat, ha⟩ := by
  rw [State.writeReg_readReg]
  simp only [Fin.ext_iff, ← BitVec.toNat_inj (x := a)]
  rfl

/-- Settles O33: the register is read after SP has been decremented. -/
theorem pushDecrementsThenWrites : Obligations.PushDecrementsThenWrites := by
  intro a s ha hsp
  simp only [exec, execPush, regIndex_of_lt ha, ok_bind, pushSlot_of_sp_ne_zero hsp, memWrite_byte, perform_ok, advance_push,
    writeSp_readReg_of_toNat ha, toNat_sp_sub_one hsp]
  rfl

/-- Settles O34: SP is incremented as it is after the register has been written. -/
theorem popReadsThenIncrements : Obligations.PopReadsThenIncrements := by
  refine ⟨fun a s ha hne hsp => ?other, fun s hread => ?sp⟩
  case other =>
    have hsp' := (writeReg_sp_of_toNat (s := s) ha (s.mem.read s.sp.toNat)).trans (if_neg hne)
    simp only [exec, execPop, regIndex_of_lt ha, ok_bind, popRead_eq, popBump_of_sp_ne_255 (hsp' ▸ hsp), perform_ok,
      advance_pop, hsp']
    rfl
  case sp =>
    have h7 : (7 : Byte).toNat < 8 := by decide
    have hsp' := (writeReg_sp_of_toNat (s := s) h7 (s.mem.read s.sp.toNat)).trans (if_pos rfl)
    have hset (v w : Byte) : (s.regs.set 7 v).set 7 w = s.regs.set 7 w := Vector.set_set ..
    simp only [exec, execPop, regIndex_of_lt h7, ok_bind, popRead_eq, popBump_of_sp_ne_255 (hsp' ▸ hread), perform_ok,
      advance_pop, hsp', ← hset (s.mem.read s.sp.toNat) (s.mem.read s.sp.toNat + 1)]
    rfl

/-! ### Subroutines and jumps -/

/-- Settles O35: the return address is pushed first, then the register is read. -/
theorem callPushesReturnAddress : Obligations.CallPushesReturnAddress := by
  intro a s ha hpc hsp
  have hread (m : Memory) : State.readReg { s.writeReg Config.spIndex (s.sp - 1) with mem := m } ⟨a.toNat, ha⟩ = _ :=
    writeSp_readReg_of_toNat ha (s.sp - 1)
  simp only [exec, execCall, regIndex_of_lt ha, ok_bind, checked8_return_address hpc, pushSlot_of_sp_ne_zero hsp,
    memWrite_byte, pure_eq_ok, perform_ok, advance_call, hread, toNat_sp_sub_one hsp]
  rfl

/-- Settles O36: the popped byte becomes the pc as it is. -/
theorem retPopsPc : Obligations.RetPopsPc := by
  intro s hsp
  have hbump : popBump (s.setPc (zext9 (s.mem.read s.sp.toNat))) = _ := popBump_of_sp_ne_255 hsp
  simp only [exec, execRet, ok_bind, popRead_eq, hbump, perform_ok, advance_ret]
  rfl

/-- Settles O38: the handlers set the pc, and `branch` chooses between the target and the next instruction. -/
theorem jumpsGoToRegister : Obligations.JumpsGoToRegister := by
  refine fun a s ha => ⟨?jmp, ?jeq, ?jne⟩
  case jmp =>
    simp only [exec, execJmp, regIndex_of_lt ha, ok_bind, pure_eq_ok, perform_ok, advance_jmp]
    rfl
  case jeq =>
    simp only [exec, execJeq, regIndex_of_lt ha, ok_bind, pure_eq_ok, perform_ok, advance_jeq, branch_eq]
    rfl
  case jne =>
    simp only [exec, execJne, regIndex_of_lt ha, ok_bind, pure_eq_ok, perform_ok, advance_jne, branch_eq, Bool.not_eq_true',
      ← Bool.not_eq_true, ite_not]
    rfl

end Sys2Proof.Machine
end

section
/-! PROOFS. Frames: what an instruction leaves as it is (`10_state.md` R24, R33, `20_memory.md` §1, `60_exceptions.md` R256),
one lemma per part of the state, and from them the frames of the instructions. -/

namespace Sys2Proof

/-- The numbers of the registers an instruction may write. -/
def Instr.writtenRegs : Instr → List Nat
  | .ldi a _ | .mul a _ => [a.toNat]
  | .pop a => [a.toNat, 7]
  | .push _ | .call _ | .ret => [7]
  | .hlt | .prn _ | .cmp _ _ | .jmp _ | .jeq _ | .jne _ => []

namespace Machine

variable {s t : State} {i : Instr}

/-! ### The parts of the state -/

/-- An instruction changes no register but those of `writtenRegs`. -/
theorem exec_readReg (h : exec i s = .next t) {r : RegIdx} (hr : r.val ∉ i.writtenRegs) : t.readReg r = s.readReg r := by
  have hne {q : RegIdx} (hq : q.val ∈ i.writtenRegs) : r ≠ q := by
    rintro rfl
    exact hr hq
  rcases exec_cases h with heff | ⟨c, -, rfl⟩
  · cases heff with
    | ldi a imm q ha => exact s.writeReg_readReg_other q r _ (hne (by simp [Instr.writtenRegs, ha]))
    | mul a b q p ha => exact s.writeReg_readReg_other q r _ (hne (by simp [Instr.writtenRegs, ha]))
    | push | call | ret => exact s.writeReg_readReg_other Config.spIndex r _ (hne (by simp [Instr.writtenRegs]))
    | pop a q sp ha =>
      have hsp : r ≠ Config.spIndex := hne (by simp [Instr.writtenRegs])
      have hq : r ≠ q := hne (by simp [Instr.writtenRegs, ha])
      rw [State.setPc_readReg, State.writeReg_readReg_other _ _ _ _ hsp, State.writeReg_readReg_other _ _ _ _ hq]
    | cmp => simp [State.compareFlags_eq]
    | jeq | jne => simp [branch_eq]
    | hlt | prn | jmp => rfl
  · rfl

/-- An instruction other than PUSH and CALL writes no memory. -/
theorem exec_mem (hpush : ∀ a, i ≠ .push a) (hcall : ∀ a, i ≠ .call a) (h : exec i s = .next t) : t.mem = s.mem := by
  rcases exec_cases h with heff | ⟨c, -, rfl⟩
  · cases heff with
    | push a => exact absurd rfl (hpush a)
    | call a => exact absurd rfl (hcall a)
    | cmp => simp [State.compareFlags_eq]
    | jeq | jne => simp [branch_eq]
    | hlt | ldi | prn | mul | pop | ret | jmp => rfl
  · rfl

/-- No instruction changes a byte of memory but the one below SP (`43_stack.md` R170). -/
theorem exec_mem_read (hwf : s.mem.wf) (h : exec i s = .next t) {x : Nat} (hx : x + 1 ≠ s.sp.toNat) :
    t.mem.read x = s.mem.read x := by
  by_cases hi : (∀ a, i ≠ .push a) ∧ ∀ a, i ≠ .call a
  · rw [exec_mem hi.1 hi.2 h]
  · rcases exec_cases h with heff | ⟨c, -, rfl⟩
    · cases heff with
      | push a r addr _ hsp | call a r addr _ _ hsp => exact Memory.read_write_other hwf _ (by omega)
      | hlt | ldi | prn | mul | pop | ret | cmp | jmp | jeq | jne => exact absurd ⟨nofun, nofun⟩ hi
    · rfl

/-- An instruction other than PRN sends nothing and asks the host nothing. -/
theorem exec_out (hprn : ∀ a, i ≠ .prn a) (h : exec i s = .next t) : t.out = s.out ∧ t.outOk = s.outOk := by
  rcases exec_cases h with heff | ⟨c, -, rfl⟩
  · cases heff with
    | prn a => exact absurd rfl (hprn a)
    | cmp => simp [State.compareFlags_eq]
    | jeq | jne => simp [branch_eq]
    | hlt | ldi | mul | push | pop | call | ret | jmp => exact ⟨rfl, rfl⟩
  · exact ⟨rfl, rfl⟩

/-- An instruction other than HLT ends no run but by a fault, which changes nothing else. -/
theorem exec_statusKeptOrFault (hhlt : i ≠ .hlt) (h : exec i s = .next t) : statusKeptOrFault i s t := by
  rcases exec_cases h with heff | ⟨c, -, rfl⟩
  · refine .inl ⟨?_, heff.status_eq.trans (if_neg hhlt)⟩
    cases heff with
    | hlt => exact absurd rfl hhlt
    | cmp => simp [State.compareFlags_eq]
    | jeq | jne => simp [branch_eq]
    | ldi | prn | mul | push | pop | call | ret | jmp => rfl
  · exact .inr ⟨c, rfl⟩

/-- An instruction that is none of these four changes no memory and no output, and the run goes on unless it faults. -/
theorem exec_keeps_memory_output_run (hi : i.mnemonic ∉ [Mnemonic.push, .call, .prn, .hlt]) (h : exec i s = .next t) :
    (∀ x, t.mem.read x = s.mem.read x) ∧ t.out = s.out ∧ t.outOk = s.outOk ∧ statusKeptOrFault i s t := by
  have hne {j : Instr} (hj : j.mnemonic ∈ [Mnemonic.push, .call, .prn, .hlt]) : i ≠ j := by
    rintro rfl
    exact hi hj
  have hmem : t.mem = s.mem := exec_mem (fun _ => hne (by simp [Instr.mnemonic])) (fun _ => hne (by simp [Instr.mnemonic])) h
  obtain ⟨hout, houtOk⟩ := exec_out (fun _ => hne (by simp [Instr.mnemonic])) h
  exact ⟨fun x => by rw [hmem], hout, houtOk, exec_statusKeptOrFault (hne (by simp [Instr.mnemonic])) h⟩

/-! ### The frames of the instructions -/

/-- Settles O39: of the parts of the state only the register `a` is written. -/
theorem ldiMulFrame : Obligations.LdiMulFrame := by
  intro i a b s t hi h
  have hregs : i.writtenRegs = [a.toNat] := by rcases hi with rfl | rfl <;> rfl
  have hcmp : ∀ x y, i ≠ .cmp x y := by rcases hi with rfl | rfl <;> nofun
  have hrest := exec_keeps_memory_output_run (by rcases hi with rfl | rfl <;> simp [Instr.mnemonic]) h
  obtain ⟨hE, hL, hG⟩ := exec_flags hcmp h
  exact ⟨fun r hr => exec_readReg h (by simp [hregs, hr]), hE, hL, hG, hrest⟩

/-- Settles O40: none of the four writes a register, and of them only CMP writes flags. -/
theorem cmpJumpFrame : Obligations.CmpJumpFrame := by
  intro i a b s t hi h
  have hregs : i.writtenRegs = [] := by rcases hi with rfl | rfl | rfl | rfl <;> rfl
  have hcmp (hne : i ≠ .cmp a b) : ∀ x y, i ≠ .cmp x y := by
    rcases hi with rfl | rfl | rfl | rfl
    · exact absurd rfl hne
    all_goals nofun
  have hrest := exec_keeps_memory_output_run (by rcases hi with rfl | rfl | rfl | rfl <;> simp [Instr.mnemonic]) h
  exact ⟨fun r => exec_readReg h (by simp [hregs]), fun hne => exec_flags (hcmp hne) h, hrest⟩

/-- Settles O41: neither writes a register, a flag or memory; HLT is not PRN and PRN is not HLT. -/
theorem prnHltFrame : Obligations.PrnHltFrame := by
  intro i a s t hi h
  have hregs : i.writtenRegs = [] := by rcases hi with rfl | rfl <;> rfl
  have hcmp : ∀ x y, i ≠ .cmp x y := by rcases hi with rfl | rfl <;> nofun
  have hmem : t.mem = s.mem :=
    exec_mem (by rcases hi with rfl | rfl <;> nofun) (by rcases hi with rfl | rfl <;> nofun) h
  obtain ⟨hE, hL, hG⟩ := exec_flags hcmp h
  refine ⟨fun r => exec_readReg h (by simp [hregs]), hE, hL, hG, fun x => by rw [hmem], ?_, ?_⟩
  · rintro rfl
    exact exec_out (by nofun) h
  · rintro rfl
    exact exec_statusKeptOrFault (by nofun) h

/-- Settles O42: the address that `pushSlot` gives is the one below SP, and it gives none exactly when there is none. -/
theorem pushCallFrame : Obligations.PushCallFrame := by
  intro i a s t hi hwf h
  have hregs : i.writtenRegs = [7] := by rcases hi with rfl | rfl <;> rfl
  have hcmp : ∀ x y, i ≠ .cmp x y := by rcases hi with rfl | rfl <;> nofun
  have hprn : ∀ x, i ≠ .prn x := by rcases hi with rfl | rfl <;> nofun
  have hhlt : i ≠ .hlt := by rcases hi with rfl | rfl <;> nofun
  obtain ⟨hE, hL, hG⟩ := exec_flags hcmp h
  obtain ⟨hout, houtOk⟩ := exec_out hprn h
  refine ⟨fun r hr => exec_readReg h ?_, hE, hL, hG, fun addr u hslot x hx => exec_mem_read hwf h ?_,
    fun c hslot x => exec_mem_read hwf h ?_, hout, houtOk, exec_statusKeptOrFault hhlt h⟩
  · rw [hregs, List.mem_singleton]
    exact fun hval => hr (Fin.ext hval)
  · obtain ⟨hsp : s.sp.toNat = addr.toNat + 1, -⟩ := pushSlot_eq_ok.1 hslot
    omega
  · obtain ⟨hsp, -⟩ := pushSlot_eq_error.1 hslot
    simp [hsp]

/-- Settles O43: POP writes `a` and SP, RET writes SP, and no memory is written. -/
theorem popRetFrame : Obligations.PopRetFrame := by
  intro i a s t hi h
  have hcmp : ∀ x y, i ≠ .cmp x y := by rcases hi with rfl | rfl <;> nofun
  have hrest := exec_keeps_memory_output_run (by rcases hi with rfl | rfl <;> simp [Instr.mnemonic]) h
  obtain ⟨hE, hL, hG⟩ := exec_flags hcmp h
  refine ⟨fun r hr hra => exec_readReg h ?_, hE, hL, hG, hrest⟩
  have hval : r.val ≠ 7 := fun hval => hr (Fin.ext hval)
  rcases hi with rfl | rfl
  · simp [Instr.writtenRegs, hval, hra rfl]
  · simp [Instr.writtenRegs, hval]

end Machine

end Sys2Proof
end

section
/-! PROOFS. Who writes memory and the output in a step (`10_state.md` R40, `20_memory.md` §4). -/

namespace Sys2Proof.Machine

/-- Settles O45: an instruction changes at most the byte below SP, one that is no PUSH or CALL none, and a fault of the fetch
none. -/
theorem memoryWrittenOnlyByPushCall : Obligations.MemoryWrittenOnlyByPushCall := by
  intro s t hwf h x hx
  obtain ⟨-, ⟨i, hf, hexec⟩ | ⟨c, -, rfl⟩⟩ := step_eq_next.1 h
  · refine ⟨?_, ?_⟩
    · by_contra hsp
      exact hx (exec_mem_read hwf hexec hsp)
    · by_contra hi
      push Not at hi
      have hmem : t.mem = s.mem :=
        exec_mem (fun a ha => (hi a).1 (ha ▸ hf)) (fun a ha => (hi a).2 (ha ▸ hf)) hexec
      exact hx (by rw [hmem])
  · exact absurd rfl hx

/-- Settles O46: an instruction that is no PRN leaves the output, and a PRN has appended its register or taken a fault. -/
theorem outputOnlyGrowsByPrn : Obligations.OutputOnlyGrowsByPrn := by
  intro s t h
  obtain ⟨-, ⟨i, hf, hexec⟩ | ⟨c, -, rfl⟩⟩ := step_eq_next.1 h
  · by_cases hprn : ∃ a, i = .prn a
    · obtain ⟨a, rfl⟩ := hprn
      rcases exec_cases hexec with heff | ⟨c, -, rfl⟩
      · cases heff with
        | prn _ r ha =>
          have hlt : a.toNat < 8 := ha ▸ r.isLt
          obtain rfl : ⟨a.toNat, hlt⟩ = r := Fin.ext ha
          exact .inr ⟨a, hlt, hf, rfl⟩
      · exact .inl rfl
    · exact .inl (exec_out (fun a ha => hprn ⟨a, ha⟩) hexec).1
  · exact .inl rfl

end Sys2Proof.Machine
end

section
/-! PROOFS. The pc after a step (`10_state.md` R28, R30) and the machine's invariant. -/

namespace Sys2Proof.Machine

variable {s t : State} {i : Instr}

/-! ### The pc of an instruction that completes -/

/-- The handler of an auto-advancing instruction leaves the pc to the loop. -/
theorem Effect.pc_eq_add_length (h : Effect s i t) (hauto : i.pcControl = .autoAdvance) :
    t.pc = s.pc + BitVec.ofNat 9 i.length := by
  rw [i.length_eq]
  cases h with
  | hlt | ldi | prn | mul | push | pop | cmp => rfl
  | call | ret | jmp | jeq | jne => cases hauto

/-- A handler that sets the pc sets it to a byte or to the next instruction. -/
theorem Effect.pc_of_handlerControlsPc (h : Effect s i t) (hset : i.pcControl = .handlerControlsPc) :
    (∃ v : Byte, t.pc = zext9 v) ∨ t.pc = s.pc + BitVec.ofNat 9 i.length := by
  rw [i.length_eq]
  cases h with
  | hlt | ldi | prn | mul | push | pop | cmp => cases hset
  | call | ret | jmp => exact .inl ⟨_, rfl⟩
  | jeq | jne =>
    rw [branch_eq]
    split
    · exact .inl ⟨_, rfl⟩
    · exact .inr rfl

/-- The address after an instruction in memory is at most 256, so it is not reduced. -/
theorem toNat_pc_add_length (hf : fetch s = .ok i) :
    (s.pc + BitVec.ofNat 9 i.length).toNat = s.pc.toNat + i.length ∧ s.pc.toNat + i.length ≤ 256 := by
  obtain ⟨hlt, -, -⟩ := fetch_eq_ok hf
  have hlen : i.length = i.operands.length + 1 := by rw [i.length_eq, i.operands_length]
  rw [BitVec.toNat_add, BitVec.toNat_ofNat]
  omega

/-- The address after a two-byte instruction in memory, where a jump that is not taken goes on. -/
theorem toNat_pc_add_two (hf : fetch s = .ok i) (hi : i.operands.length = 1) : (s.pc + 2).toNat = s.pc.toNat + 2 := by
  obtain ⟨hlt, -, -⟩ := fetch_eq_ok hf
  bv_omega

/-- No instruction that completes from memory leaves a pc above 256. -/
theorem Effect.pc_le (h : Effect s i t) (hf : fetch s = .ok i) : t.pc.toNat ≤ 256 := by
  have hnext (ht : t.pc = s.pc + BitVec.ofNat 9 i.length) : t.pc.toNat ≤ 256 := by
    obtain ⟨hpc, hle⟩ := toNat_pc_add_length hf
    rwa [ht, hpc]
  cases hc : i.pcControl with
  | autoAdvance => exact hnext (h.pc_eq_add_length hc)
  | handlerControlsPc =>
    rcases h.pc_of_handlerControlsPc hc with ⟨v, hv⟩ | ht
    · rw [hv, zext9_toNat]
      exact Nat.le_of_lt v.isLt
    · exact hnext ht

theorem toNat_ofNat_regIdx (r : RegIdx) : (BitVec.ofNat 8 r).toNat = r.val := by
  rw [BitVec.toNat_ofNat]
  omega

/-- The operand byte that is a register's number names that register. -/
theorem eq_of_toNat_ofNat {r q : RegIdx} (h : (BitVec.ofNat 8 r).toNat = q.val) : q = r :=
  Fin.ext (h.symm.trans (toNat_ofNat_regIdx r))

/-- Settles O47: the effect of each instruction, whose register operand is the named one, and bounds from its place in
memory. -/
theorem pcAfterCompletedStep : Obligations.PcAfterCompletedStep := by
  intro s t i hf h hnofault
  obtain ⟨-, ⟨j, hfj, hexec⟩ | ⟨c, -, rfl⟩⟩ := step_eq_next.1 h
  · obtain rfl : i = j := Except.ok.inj (hf.symm.trans hfj)
    rcases exec_cases hexec with heff | ⟨c, -, rfl⟩
    · obtain ⟨hpc, -⟩ := toNat_pc_add_length hf
      refine ⟨heff.pc_le hf, fun hauto => by rw [heff.pc_eq_add_length hauto, hpc], ?ret, ?jmp, ?call, ?jeq, ?jne⟩
      case ret =>
        rintro rfl
        cases heff with
        | ret => exact zext9_toNat _
      case jmp =>
        rintro r rfl
        cases heff with
        | jmp _ q hq => rw [eq_of_toNat_ofNat hq, State.setPc_pc, zext9_toNat]
      case call =>
        rintro r rfl
        cases heff with
        | call _ q addr ret hq =>
          obtain rfl := eq_of_toNat_ofNat hq
          exact zext9_toNat _
      case jeq =>
        rintro r rfl
        cases heff with
        | jeq _ q hq =>
          obtain rfl := eq_of_toNat_ofNat hq
          rw [branch_eq, State.setPc_pc, apply_ite BitVec.toNat, zext9_toNat, toNat_pc_add_two hf rfl]
      case jne =>
        rintro r rfl
        cases heff with
        | jne _ q hq =>
          obtain rfl := eq_of_toNat_ofNat hq
          rw [branch_eq, State.setPc_pc, apply_ite BitVec.toNat, zext9_toNat, toNat_pc_add_two hf rfl]
          cases s.flagE <;> rfl
    · exact absurd rfl (hnofault _)
  · exact absurd rfl (hnofault _)

/-! ### The invariant -/

/-- Taking a fault keeps the invariant: it moves no pc, and it clears `running` with the status. -/
theorem State.Inv.takeFault (h : s.Inv) (op : Option Byte) (c : FaultCause) : (s.takeFault op c).Inv where
  memory := h.memory
  pcBound := h.pcBound
  runningIff := by simp
  flags := h.flags
  faultPc := by
    rintro info hinfo
    rw [← Status.fault.inj hinfo]
    rfl

/-- A push writes at the address of a byte, and nothing else writes memory. -/
theorem Effect.mem_wf (h : Effect s i t) (hwf : s.mem.wf) : t.mem.wf := by
  cases h with
  | push a r addr | call a r addr => exact Memory.write_wf hwf addr.isLt _
  | cmp => simpa [State.compareFlags_eq] using hwf
  | jeq | jne => simpa [branch_eq] using hwf
  | hlt | ldi | prn | mul | pop | ret | jmp => exact hwf

/-- HLT clears `running` with the status, and no other instruction that completes touches either. -/
theorem Effect.runningIff (h : Effect s i t) (hrun : s.running = true ↔ s.status = .running) :
    t.running = true ↔ t.status = .running := by
  cases h with
  | hlt => simp
  | cmp => simpa [State.compareFlags_eq] using hrun
  | jeq | jne => simpa [branch_eq] using hrun
  | ldi | prn | mul | push | pop | call | ret | jmp => exact hrun

/-- CMP's flags are the three exclusive outcomes of a comparison (`45_compare.md` R210), and no other instruction writes one. -/
theorem Effect.flags_exclusive (h : Effect s i t) (hinv : s.Inv) :
    ¬(t.flagE = true ∧ t.flagL = true) ∧ ¬(t.flagE = true ∧ t.flagG = true) ∧ ¬(t.flagL = true ∧ t.flagG = true) := by
  cases h with
  | cmp a b r q =>
    simp only [State.compareFlags_eq_toNat, State.setPc_flagE, State.setPc_flagL, State.setPc_flagG, State.setFlags_flagE,
      State.setFlags_flagL, State.setFlags_flagG, decide_eq_true_eq]
    omega
  | jeq | jne => simpa [branch_eq] using hinv.flags
  | hlt | ldi | prn | mul | push | pop | call | ret | jmp => exact hinv.flags

/-- An instruction in memory that completes keeps the invariant. -/
theorem Effect.inv (h : Effect s i t) (hf : fetch s = .ok i) (hs : s.status = .running) (hinv : s.Inv) : t.Inv where
  memory := h.mem_wf hinv.memory
  pcBound := (h.pc_le hf).trans (by decide)
  runningIff := h.runningIff hinv.runningIff
  flags := h.flags_exclusive hinv
  faultPc info hfault := absurd hfault (h.status_ne_fault hs info)

/-- Settles O48: a step takes a fault, of the fetch or of the instruction, or has the effect of an instruction in memory. -/
theorem stepKeepsMachineInvariant : Obligations.StepKeepsMachineInvariant := by
  intro s t hinv h
  obtain ⟨hs, ⟨i, hf, hexec⟩ | ⟨c, -, rfl⟩⟩ := step_eq_next.1 h
  · rcases exec_cases hexec with heff | ⟨c, -, rfl⟩
    · exact heff.inv hf hs hinv
    · exact hinv.takeFault _ _
  · exact hinv.takeFault _ _

/-! ### Where a run begins (`70_reset_and_hazards.md` R280 to R284) -/

/-- The reset state with any canonical memory meets the invariant. -/
theorem reset_with_memory_inv {m : Memory} (hwf : m.wf) : State.Inv { State.reset with mem := m } where
  memory := hwf
  pcBound := Nat.zero_le _
  runningIff := iff_of_true rfl rfl
  flags := by simp [State.reset]
  faultPc _ hfault := Status.noConfusion hfault

/-- A load leaves the reset state with a canonical memory. -/
theorem exists_memory_of_loadImage {image : List Byte} (h : loadImage image = .ok s) :
    ∃ m : Memory, m.wf ∧ s = { State.reset with mem := m } := by
  obtain ⟨-, hs, hwf⟩ := loadImage_eq_ok h
  exact ⟨s.mem, hwf, hs⟩

/-- Settles O49: the empty memory is canonical. -/
theorem resetMeetsMachineInvariant : Obligations.ResetMeetsMachineInvariant := reset_with_memory_inv Memory.reset_wf

/-- Settles O50: a load differs from reset in memory alone. -/
theorem loadedStateMeetsMachineInvariant : Obligations.LoadedStateMeetsMachineInvariant := by
  intro image s h
  obtain ⟨m, hwf, rfl⟩ := exists_memory_of_loadImage h
  exact reset_with_memory_inv hwf

/-- Settles O2: reset gives the values, and a load changes memory only. -/
theorem resetAndLoadedFields : Obligations.ResetAndLoadedFields := by
  have hregs : ∀ r : RegIdx, r ≠ 7 → State.reset.readReg r = 0 := by decide
  rintro s (rfl | ⟨image, h⟩)
  · exact ⟨hregs, rfl, rfl, rfl, rfl, rfl, rfl, rfl, rfl⟩
  · obtain ⟨m, -, rfl⟩ := exists_memory_of_loadImage h
    exact ⟨hregs, rfl, rfl, rfl, rfl, rfl, rfl, rfl, rfl⟩

/-- Settles O3: the load looks at the image's length alone. -/
theorem overlongImageIsRefused : Obligations.OverlongImageIsRefused := by
  intro image
  refine ⟨⟨fun h => ⟨_, loadImage_of_length_le h⟩, fun ⟨_, h⟩ => (loadImage_eq_ok h).1⟩, fun h => if_neg (Nat.not_le.2 h),
    fun h => ?_⟩
  by_contra hle
  rw [loadImage_of_length_le (Nat.not_lt.1 hle)] at h
  cases h

end Sys2Proof.Machine
end

section
/-! PROOFS. The canonical memory (log entry 17): its list is told by what it reads as. -/

namespace Sys2Proof.Machine

/-- In memory whose addresses rise, a listed cell is what its address reads as. -/
theorem Memory.read_of_mem {m : Memory} (h : m.Pairwise (fun x y => x.1 < y.1)) {c : Host.Cell} (hc : c ∈ m) :
    m.read c.1 = c.2 := by
  induction m with
  | nil => cases hc
  | cons d m ih =>
    obtain ⟨hd, hm⟩ := List.pairwise_cons.1 h
    rw [Memory.read_cons]
    rcases List.mem_cons.1 hc with rfl | hc
    · exact if_pos rfl
    · rw [if_neg (Nat.ne_of_lt (hd c hc)), ih hm hc]

/-- An address that does not read as unlisted is listed. -/
theorem Memory.mem_of_read {m : Memory} {a : Nat} (h : m.read a ≠ Config.unlistedByte) : (a, m.read a) ∈ m := by
  induction m with
  | nil => exact absurd rfl h
  | cons d m ih =>
    rw [Memory.read_cons] at h ⊢
    split
    · rename_i ha
      subst ha
      exact List.mem_cons_self
    · rename_i ha
      rw [if_neg ha] at h
      exact List.mem_cons_of_mem d (ih h)

/-- The cells of a canonical memory are those that do not read as unlisted. -/
theorem Memory.mem_iff_read {m : Memory} (h : m.wf) (c : Host.Cell) :
    c ∈ m ↔ m.read c.1 = c.2 ∧ c.2 ≠ Config.unlistedByte := by
  constructor
  · exact fun hc => ⟨Memory.read_of_mem h.1 hc, (h.2 c hc).2⟩
  · rintro ⟨hread, hne⟩
    have hmem : (c.1, m.read c.1) ∈ m := Memory.mem_of_read (hread ▸ hne)
    rwa [hread] at hmem

/-- Settles O51: the two lists have the same cells, and rising addresses leave them one order. -/
theorem canonicalMemoryIsUnique : Obligations.CanonicalMemoryIsUnique := by
  intro m n hm hn hread
  have hasymm : Std.Asymm fun x y : Host.Cell => x.1 < y.1 := ⟨fun _ _ => Nat.lt_asymm⟩
  refine hm.1.eq_of_mem_iff hn.1 fun c => ?_
  rw [Memory.mem_iff_read hm, Memory.mem_iff_read hn, hread]

end Sys2Proof.Machine
end

section
/-! PROOFS. A few instructions in a row: the round trips of the stack (`43_stack.md` R173, `44_subroutine.md` R191) and a jump
to itself (`46_jumps.md` R230). -/

namespace Sys2Proof.Machine

variable {s t : State} {r : RegIdx}

/-! ### Register operands by their number -/

theorem toNat_ofNat_regIdx_lt (r : RegIdx) : (BitVec.ofNat 8 r).toNat < 8 := by
  rw [toNat_ofNat_regIdx]
  exact r.isLt

theorem fin_toNat_ofNat_regIdx (r : RegIdx) : (⟨_, toNat_ofNat_regIdx_lt r⟩ : RegIdx) = r :=
  Fin.ext (toNat_ofNat_regIdx r)

theorem ofNat_regIdx_ne_seven (h : r ≠ 7) : BitVec.ofNat 8 r ≠ 7 := by
  intro he
  refine h (Fin.ext ?_)
  rw [← toNat_ofNat_regIdx r, he]
  rfl

/-! ### What a push leaves and what a pop takes -/

/-- A decremented SP is below 255, so the pop that follows a push completes. -/
theorem sp_sub_one_ne_255 (h : s.sp ≠ 0) : s.sp - 1 ≠ 255 := by
  bv_omega

/-- The byte that a push writes is the one at the new SP. -/
theorem read_write_at_pushed_sp (hsp : s.sp ≠ 0) (hwf : s.mem.wf) (v : Byte) :
    (s.mem.write (s.sp.toNat - 1) v).read (s.writeReg Config.spIndex (s.sp - 1)).sp.toNat = v := by
  have hslot : (s.writeReg Config.spIndex (s.sp - 1)).sp = s.sp - 1 := s.writeReg_readReg_same Config.spIndex (s.sp - 1)
  rw [hslot, toNat_sp_sub_one hsp, Memory.read_write_same hwf]

/-- A PUSH leaves its register's byte on the top of the stack. -/
theorem exec_push_pushes (hr : r ≠ 7) (hsp : s.sp ≠ 0) (hwf : s.mem.wf)
    (h : exec (.push (BitVec.ofNat 8 r)) s = .next t) : t.sp = s.sp - 1 ∧ t.mem.read t.sp.toNat = s.readReg r := by
  rw [pushDecrementsThenWrites _ s (toNat_ofNat_regIdx_lt r) hsp, if_neg (ofNat_regIdx_ne_seven hr),
    fin_toNat_ofNat_regIdx] at h
  obtain rfl := Host.Outcome.next.inj h
  exact ⟨s.writeReg_readReg_same Config.spIndex (s.sp - 1), read_write_at_pushed_sp hsp hwf _⟩

/-- A CALL leaves the return address on the top of the stack. -/
theorem exec_call_pushes (hpc : s.pc.toNat ≤ 253) (hsp : s.sp ≠ 0) (hwf : s.mem.wf)
    (h : exec (.call (BitVec.ofNat 8 r)) s = .next t) :
    t.sp = s.sp - 1 ∧ t.mem.read t.sp.toNat = BitVec.ofNat 8 (s.pc.toNat + 2) := by
  rw [callPushesReturnAddress _ s (toNat_ofNat_regIdx_lt r) hpc hsp] at h
  obtain rfl := Host.Outcome.next.inj h
  exact ⟨s.writeReg_readReg_same Config.spIndex (s.sp - 1), read_write_at_pushed_sp hsp hwf _⟩

/-- A POP takes the byte on the top of the stack into its register. -/
theorem exec_pop_pops (hr : r ≠ 7) (hsp : s.sp ≠ 255) (h : exec (.pop (BitVec.ofNat 8 r)) s = .next t) :
    t.readReg r = s.mem.read s.sp.toNat ∧ t.sp = s.sp + 1 := by
  have hexec := popReadsThenIncrements.1 _ s (toNat_ofNat_regIdx_lt r) (ofNat_regIdx_ne_seven hr) hsp
  simp only [toNat_ofNat_regIdx] at hexec
  obtain rfl := Host.Outcome.next.inj (hexec.symm.trans h)
  have hreg := (s.writeReg r (s.mem.read s.sp.toNat)).writeReg_readReg_other Config.spIndex r (s.sp + 1) hr
  exact ⟨hreg.trans (s.writeReg_readReg_same r _), State.writeReg_readReg_same (s.writeReg r _) Config.spIndex (s.sp + 1)⟩

/-- A RET takes the byte on the top of the stack into the pc. -/
theorem exec_ret_pops (hsp : s.sp ≠ 255) (h : exec .ret s = .next t) :
    t.pc = zext9 (s.mem.read s.sp.toNat) ∧ t.sp = s.sp + 1 := by
  obtain rfl := Host.Outcome.next.inj ((retPopsPc s hsp).symm.trans h)
  exact ⟨rfl, s.writeReg_readReg_same Config.spIndex (s.sp + 1)⟩

/-! ### The round trips -/

/-- Settles O52: the pop reads where the push has written, and increments what the push has decremented. -/
theorem pushPopRoundTrip : Obligations.PushPopRoundTrip := by
  intro a b s t u ha hb hsp hwf hpush hpop
  obtain ⟨htsp, htop⟩ := exec_push_pushes ha hsp hwf hpush
  obtain ⟨hval, husp⟩ := exec_pop_pops hb (htsp ▸ sp_sub_one_ne_255 hsp) hpop
  exact ⟨hval.trans htop, by rw [husp, htsp, BitVec.sub_add_cancel]⟩

/-- Settles O53: RET pops what CALL has pushed, and the return address fits a byte. -/
theorem callRetRoundTrip : Obligations.CallRetRoundTrip := by
  intro a s t u v hpc hsp hwf hcall husp hutop hret
  obtain ⟨htsp, htop⟩ := exec_call_pushes hpc hsp hwf hcall
  obtain ⟨hvpc, hvsp⟩ := exec_ret_pops (husp ▸ htsp ▸ sp_sub_one_ne_255 hsp) hret
  constructor
  · rw [hvpc, zext9_toNat, hutop, htop, BitVec.toNat_ofNat]
    omega
  · rw [hvsp, husp, htsp, BitVec.sub_add_cancel]

/-! ### A jump to itself -/

theorem run_of_step_self (h : step s = .next s) (fuel : Nat) : core.run fuel s = .next s := by
  induction fuel with
  | zero => rfl
  | succ k ih =>
    have hstep : core.step s = .next s := h
    simpa only [Host.Core.run, hstep] using ih

theorem runFor_of_step_self (h : step s = .next s) (fuel : Nat) : runFor fuel s = s := by
  induction fuel with
  | zero => rfl
  | succ k ih => simpa only [runFor, h] using ih

/-- Settles O54: the jump sets the pc to what it is, so a step, and then any number of steps, changes nothing. -/
theorem jumpToItselfNeverEnds : Obligations.JumpToItselfNeverEnds := by
  intro s r rest hs hdecode htarget
  have hpc : (s.readReg r).setWidth 9 = s.pc := BitVec.eq_of_toNat_eq ((zext9_toNat _).trans htarget)
  have hstep : step s = .next s := by
    rw [stepRunsDecodedInstruction s _ rest hs hdecode, (jumpsGoToRegister _ s (toNat_ofNat_regIdx_lt r)).1,
      fin_toNat_ofNat_regIdx, hpc]
  exact ⟨hstep, fun fuel => ⟨run_of_step_self hstep fuel, runFor_of_step_self hstep fuel⟩⟩

end Sys2Proof.Machine
end

section
/-! PROOFS. The host's side of the machine: its answers reach PRN only (`41_load_output_halt.md` R136), and the status codes it
sees (`60_exceptions.md` R252). -/

namespace Sys2Proof.Machine

/-- The state with other answers of the host named. -/
def State.withAnswers (s : State) (answers : List Bool) : State := { s with outOk := answers }

variable (s : State) (answers : List Bool)

@[simp] theorem State.withAnswers_mem : (s.withAnswers answers).mem = s.mem := rfl

@[simp] theorem State.withAnswers_pc : (s.withAnswers answers).pc = s.pc := rfl

@[simp] theorem State.withAnswers_sp : (s.withAnswers answers).sp = s.sp := rfl

@[simp] theorem State.setPc_withAnswers (x : Pc) : (s.withAnswers answers).setPc x = (s.setPc x).withAnswers answers := rfl

@[simp] theorem State.writeReg_withAnswers (i : RegIdx) (v : Byte) :
    (s.withAnswers answers).writeReg i v = (s.writeReg i v).withAnswers answers := rfl

@[simp] theorem pushSlot_withAnswers :
    pushSlot (s.withAnswers answers) = (fun p => (p.1, p.2.withAnswers answers)) <$> pushSlot s := by
  simp [pushSlot]

@[simp] theorem popBump_withAnswers : popBump (s.withAnswers answers) = (·.withAnswers answers) <$> popBump s := by
  simp [popBump]

/-- An instruction other than PRN carries the answers through: each check and stack operation answers the same, and no other
update of the state looks at them. -/
theorem exec_withAnswers {i : Instr} (hprn : ∀ a, i ≠ .prn a) :
    exec i (s.withAnswers answers) = mapNext (·.withAnswers answers) (exec i s) := by
  cases i with
  | prn a => exact absurd rfl (hprn a)
  | hlt => rfl
  | ldi a | jmp a =>
    simp only [exec, execLdi, execJmp]
    cases regIndex a <;> rfl
  | jeq a | jne a =>
    simp only [exec, execJeq, execJne, branch_eq]
    cases regIndex a <;> rfl
  | mul a b | cmp a b =>
    simp only [exec, execMul, execCmp, State.compareFlags_eq]
    cases regIndexPair a b <;> rfl
  | push a =>
    simp only [exec, execPush, pushSlot_withAnswers, memWrite_byte]
    cases regIndex a <;> cases pushSlot s <;> rfl
  | call a =>
    simp only [exec, execCall, State.withAnswers_pc, pushSlot_withAnswers, memWrite_byte]
    cases regIndex a <;> cases checked8 (s.pc.toNat + 2) <;> cases pushSlot s <;> rfl
  | pop a =>
    simp only [exec, execPop, popRead_eq, ok_bind, State.withAnswers_mem, State.withAnswers_sp, State.writeReg_withAnswers,
      popBump_withAnswers]
    cases regIndex a with
    | error c => rfl
    | ok r =>
      rw [ok_bind, ok_bind]
      cases popBump (s.writeReg r (s.mem.read s.sp.toNat)) <;> rfl
  | ret =>
    simp only [exec, execRet, popRead_eq, ok_bind, State.withAnswers_mem, State.withAnswers_sp, State.setPc_withAnswers,
      popBump_withAnswers]
    cases popBump (s.setPc (zext9 (s.mem.read s.sp.toNat))) <;> rfl

/-- Settles O56: the answers of the state commute with every instruction but PRN. -/
theorem hostAnswersReachPrnOnly : Obligations.HostAnswersReachPrnOnly :=
  fun _ s answers hprn => exec_withAnswers s answers hprn

/-- Settles O55: each code is a case of the definitions. -/
theorem statusCodesAreDistinct : Obligations.StatusCodesAreDistinct :=
  fun _ _ _ _ _ _ _ => ⟨rfl, rfl, rfl, rfl, rfl, rfl, rfl⟩

end Sys2Proof.Machine
end
